-- ==== Sys2Proof/Word.lean ====
section
/-! DEFINITION. The values the spec treats as bits: bytes, 16-bit words and buffer indices. -/

namespace Sys2Proof

/-- A byte: an 8-bit unsigned value (R8). -/
abbrev Byte := BitVec 8

/-- A 16-bit value: `SUM`, `CKSUM`, `ENTRY0`, `ENTRY1`, `ROMSZ`, `RAMSZ` (R13). -/
abbrev Half := BitVec 16

/-- A buffer index or length, `ADDR_W` = 32 bits (R6): `LEN_R`, `IDX` and the port `len` (R13, R31). -/
abbrev Index := BitVec 32

end Sys2Proof
end

