-- ==== Sys2Proof/Config.lean ====
section
/-! DEFINITION. The parameters the source leaves open and the spec fixes for this hardware (R6). -/

namespace Sys2Proof

/-- `ADDR_W`: width of the buffer index, the length register and the index counter (R6). -/
abbrev Config.addrW : Nat := 32

/-- Buffer indices are the integers below `2 ^ ADDR_W` (R36). -/
abbrev Config.indexSpace : Nat := 2 ^ Config.addrW

/-- `ENTRY_BASE`: the first of the four entry-point bytes (R6); the value of this hardware (log entry 12). -/
abbrev Config.entryBase : Nat := 0x100

/-- The other value the source allows for `ENTRY_BASE`, 100 decimal (R6, R7). -/
abbrev Config.entryBaseVariant : Nat := 100

end Sys2Proof
end

