-- ==== Sys2Proof/Syntax.lean ====
section
/-! DEFINITION. The instructions, one constructor per row of spec/opcode_table.json, and the host programs of R61 and R62. -/

namespace Sys2Proof

/-- The commands of format `CMD2` (R52) and the micro-operations of format `SEQ4` (R53). No row has an operand
(R54); `reservedSeqCF` keeps the four-bit code, since its row covers the codes 0xC to 0xF. -/
inductive Instr where
  /-- `cmd` = 0b00 (R65). -/
  | nop
  /-- `cmd` = 0b01 (R66, R67). -/
  | parse
  /-- `cmd` = 0b10, reserved (R55, R68). -/
  | reservedCmd10
  /-- `cmd` = 0b11, reserved (R55, R68). -/
  | reservedCmd11
  /-- `SEQ` = 0x0, hold (R69). -/
  | idle
  /-- `SEQ` = 0x1 (R73). -/
  | lenchk
  /-- `SEQ` = 0x2 (R78). -/
  | extEntry
  /-- `SEQ` = 0x3 (R79). -/
  | extTitle
  /-- `SEQ` = 0x4 (R90). -/
  | extCart
  /-- `SEQ` = 0x5 (R81). -/
  | extDest
  /-- `SEQ` = 0x6 (R83). -/
  | extCksum
  /-- `SEQ` = 0x7 (R86). -/
  | extSizes
  /-- `SEQ` = 0x8 (R93). -/
  | sum
  /-- `SEQ` = 0x9 (R94). -/
  | compare
  /-- `SEQ` = 0xA, hold (R70). -/
  | done
  /-- `SEQ` = 0xB, never held (R56). -/
  | reservedSeqB
  /-- `SEQ` = 0xC to 0xF, never held (R56). -/
  | reservedSeqCF (code : BitVec 4)
deriving DecidableEq, Repr

/-- The row's mnemonic in spec/opcode_table.json. -/
def Instr.mnemonic : Instr → String
  | .nop => "NOP"
  | .parse => "PARSE"
  | .reservedCmd10 => "RESERVED_CMD_10"
  | .reservedCmd11 => "RESERVED_CMD_11"
  | .idle => "IDLE"
  | .lenchk => "LENCHK"
  | .extEntry => "EXT_ENTRY"
  | .extTitle => "EXT_TITLE"
  | .extCart => "EXT_CART"
  | .extDest => "EXT_DEST"
  | .extCksum => "EXT_CKSUM"
  | .extSizes => "EXT_SIZES"
  | .sum => "SUM"
  | .compare => "COMPARE"
  | .done => "DONE"
  | .reservedSeqB => "RESERVED_SEQ_B"
  | .reservedSeqCF _ => "RESERVED_SEQ_C_F"

/-- One host step (R63): the block samples `rst` and `cmd` once, and in the same step the host may drive `len`,
write bytes of the buffer, and read the output ports (R64). -/
structure HostStep where
  /-- The input port `rst`. -/
  rst : Bool := false
  /-- The input port `cmd`. -/
  cmd : BitVec 2 := 0b00
  /-- A new value for the input port `len`, if the host drives one. -/
  drive : Option Index := none
  /-- The buffer bytes the host writes, in order. -/
  writes : List (Nat × Byte) := []
  /-- Whether the host reads the output ports in this step. -/
  read : Bool := false
deriving DecidableEq, Repr

/-- Which agent moves: the sequencer, or the host with its inputs (R63), or the host waiting (R62). -/
inductive Event where
  | sequencer
  | host (h : HostStep)
  /-- `WAITDONE` (R62): `NOP` repeated until `done = 1`, the sequencer running meanwhile (log entry 16). -/
  | waitDone
deriving DecidableEq, Repr

/-- `NOP` (R61). -/
def HostStep.nop : HostStep := {}

/-- `PARSE` (R61): `len` as last set. -/
def HostStep.parse : HostStep := { cmd := 0b01 }

/-- `SETLEN n` (R61): the host drives `len <- n`, with `cmd = NOP` in the same step. -/
def HostStep.setLen (n : Index) : HostStep := { drive := some n }

/-- The cells `LOADBUF i, b0, b1, …` writes: `buf[i] <- b0`, `buf[i+1] <- b1`, … (R61). -/
def loadCells : Nat → List Byte → List (Nat × Byte)
  | _, [] => []
  | i, b :: bs => (i, b) :: loadCells (i + 1) bs

/-- `LOADBUF i, b0, b1, …` (R61), with `cmd = NOP` in the same step. -/
def HostStep.loadBuf (i : Nat) (bs : List Byte) : HostStep := { writes := loadCells i bs }

/-- `RESET` (R61): `rst = 1` for one step, with any `cmd`. -/
def HostStep.reset (cmd : BitVec 2 := 0b00) : HostStep := { rst := true, cmd := cmd }

/-- `READ` (R62): the output ports are observed, with `cmd = NOP`. -/
def HostStep.readPorts : HostStep := { read := true }

end Sys2Proof
end

