-- ==== Sys2Proof/WellFormed.lean ====
section
/-! DEFINITION. Which instructions and host steps are well formed. -/

namespace Sys2Proof

/-- The one operand of an instruction is the code of the row `RESERVED_SEQ_C_F`: match 0xC, mask 0xC, so
`SEQ[3:2]` is 0b11 (R53, spec/opcode_table.json). -/
def Instr.wellFormed : Instr → Bool
  | .reservedSeqCF code => code &&& 0xC#4 == 0xC#4
  | .nop | .parse | .reservedCmd10 | .reservedCmd11 | .idle | .lenchk | .extEntry | .extTitle | .extCart
  | .extDest | .extCksum | .extSizes | .sum | .compare | .done | .reservedSeqB => true

/-- A host step writes only buffer indices that exist, `0 ≤ i < 2 ^ ADDR_W` (R36). -/
def HostStep.wellFormed (h : HostStep) : Bool := h.writes.all fun c => decide (c.1 < Config.indexSpace)

end Sys2Proof
end

