-- ==== Sys2Proof/Decode.lean ====
section
/-! DEFINITION. The two encoding spaces of the block (R51 to R53): decoder, encoder and the opcode table's rows. -/

namespace Sys2Proof

/-- The two formats (R51): `CMD2` on the port `cmd[1:0]`, `SEQ4` in the register `SEQ[3:0]`. -/
inductive Format where
  | cmd2
  | seq4
deriving DecidableEq, Repr

/-- A code in one of the two encoding spaces. -/
inductive CodeWord where
  | cmd2 (bits : BitVec 2)
  | seq4 (bits : BitVec 4)
deriving DecidableEq, Repr

/-- Why a number is no code of a format. -/
inductive DecodeReject where
  /-- The number has a bit above the format's fixed width (R51). -/
  | widerThanFormat
deriving DecidableEq, Repr

/-- `CMD2` (R52). -/
def decodeCmd (bits : BitVec 2) : Instr :=
  match bits with
  | 0b00#2 => .nop
  | 0b01#2 => .parse
  | 0b10#2 => .reservedCmd10
  | 0b11#2 => .reservedCmd11

/-- `SEQ4` (R53); the codes left over, 0xC to 0xF, are the row `RESERVED_SEQ_C_F`. -/
def decodeSeq (bits : BitVec 4) : Instr :=
  match bits with
  | 0x0#4 => .idle
  | 0x1#4 => .lenchk
  | 0x2#4 => .extEntry
  | 0x3#4 => .extTitle
  | 0x4#4 => .extCart
  | 0x5#4 => .extDest
  | 0x6#4 => .extCksum
  | 0x7#4 => .extSizes
  | 0x8#4 => .sum
  | 0x9#4 => .compare
  | 0xA#4 => .done
  | 0xB#4 => .reservedSeqB
  | code => .reservedSeqCF code

/-- The instruction a code stands for (R52, R53). -/
def decode : CodeWord → Instr
  | .cmd2 bits => decodeCmd bits
  | .seq4 bits => decodeSeq bits

/-- A number read in a format, bit 0 the least significant: total, and rejected by name when it is wider than the
format (R51, R57). -/
def decodeNat (f : Format) (w : Nat) : Except DecodeReject Instr :=
  match f with
  | .cmd2 => if w < 4 then .ok (decode (.cmd2 (BitVec.ofNat 2 w))) else .error .widerThanFormat
  | .seq4 => if w < 16 then .ok (decode (.seq4 (BitVec.ofNat 4 w))) else .error .widerThanFormat

/-! The codes of `SEQ` that a rule writes (R53). -/

abbrev Seq.idle : BitVec 4 := 0x0
abbrev Seq.lenchk : BitVec 4 := 0x1
abbrev Seq.extEntry : BitVec 4 := 0x2
abbrev Seq.extTitle : BitVec 4 := 0x3
abbrev Seq.extCart : BitVec 4 := 0x4
abbrev Seq.extDest : BitVec 4 := 0x5
abbrev Seq.extCksum : BitVec 4 := 0x6
abbrev Seq.extSizes : BitVec 4 := 0x7
abbrev Seq.sum : BitVec 4 := 0x8
abbrev Seq.compare : BitVec 4 := 0x9
abbrev Seq.done : BitVec 4 := 0xA

/-- The code of an instruction (R52, R53). -/
def encode : Instr → CodeWord
  | .nop => .cmd2 0b00
  | .parse => .cmd2 0b01
  | .reservedCmd10 => .cmd2 0b10
  | .reservedCmd11 => .cmd2 0b11
  | .idle => .seq4 Seq.idle
  | .lenchk => .seq4 Seq.lenchk
  | .extEntry => .seq4 Seq.extEntry
  | .extTitle => .seq4 Seq.extTitle
  | .extCart => .seq4 Seq.extCart
  | .extDest => .seq4 Seq.extDest
  | .extCksum => .seq4 Seq.extCksum
  | .extSizes => .seq4 Seq.extSizes
  | .sum => .seq4 Seq.sum
  | .compare => .seq4 Seq.compare
  | .done => .seq4 Seq.done
  | .reservedSeqB => .seq4 0xB
  | .reservedSeqCF code => .seq4 code

/-- A row of spec/opcode_table.json. -/
structure TableRow where
  mnemonic : String
  format : Format
  matchBits : Nat
  mask : Nat
deriving DecidableEq, Repr

/-- The rows of spec/opcode_table.json, in its order. -/
def opcodeTable : List TableRow :=
  [ ⟨"NOP", .cmd2, 0x0, 0x3⟩, ⟨"PARSE", .cmd2, 0x1, 0x3⟩, ⟨"RESERVED_CMD_10", .cmd2, 0x2, 0x3⟩,
    ⟨"RESERVED_CMD_11", .cmd2, 0x3, 0x3⟩, ⟨"IDLE", .seq4, 0x0, 0xf⟩, ⟨"LENCHK", .seq4, 0x1, 0xf⟩,
    ⟨"EXT_ENTRY", .seq4, 0x2, 0xf⟩, ⟨"EXT_TITLE", .seq4, 0x3, 0xf⟩, ⟨"EXT_CART", .seq4, 0x4, 0xf⟩,
    ⟨"EXT_DEST", .seq4, 0x5, 0xf⟩, ⟨"EXT_CKSUM", .seq4, 0x6, 0xf⟩, ⟨"EXT_SIZES", .seq4, 0x7, 0xf⟩,
    ⟨"SUM", .seq4, 0x8, 0xf⟩, ⟨"COMPARE", .seq4, 0x9, 0xf⟩, ⟨"DONE", .seq4, 0xa, 0xf⟩,
    ⟨"RESERVED_SEQ_B", .seq4, 0xb, 0xf⟩, ⟨"RESERVED_SEQ_C_F", .seq4, 0xc, 0xc⟩ ]

/-- Whether a code falls in a row: its format is the row's, and under the row's mask it is the row's match. -/
def TableRow.covers (r : TableRow) : CodeWord → Bool
  | .cmd2 bits => r.format == .cmd2 && bits.toNat &&& r.mask == r.matchBits
  | .seq4 bits => r.format == .seq4 && bits.toNat &&& r.mask == r.matchBits

/-- The format in which a table word of `nbits` bits is read. Two bits or fewer are a `CMD2` command; anything wider is
a `SEQ4` code, the register the sequencer takes its next micro-operation from (R14). In whole bytes both formats have
one byte, and that byte is read as `SEQ4` (log entry 4). -/
def formatOfBits (nbits : Nat) : Format := if nbits ≤ 2 then .cmd2 else .seq4

/-- The instruction the decoder reads from a table word; none where it refuses (log entry 4). -/
def decodeTableWord (nbits w : Nat) : Option Instr := (decodeNat (formatOfBits nbits) w).toOption

end Sys2Proof
end

