-- ==== Sys2Proof/Machine/State.lean ====
section
/-! DEFINITION. The machine's state, its reset, and the reasons a step can stop. -/

namespace Sys2Proof.Machine

/-- Why the machine stops with a fault. -/
inductive Fault where
  /-- Raised by a host step that reads the output ports when the parse has ended in `Truncated` (R34, R104): the
  observation of that outcome is a fault. SAFE: a claim about that input becomes unprovable (log entry 6). -/
  | truncatedObserved
deriving DecidableEq, Repr

/-- Why a step has no meaning. -/
inductive Refusal where
  /-- Raised by exec for an instruction that has no meaning yet. SAFE. -/
  | notModelled (mnemonic : String)
  /-- Raised by a host step that drives a reserved command (R55, R68). SAFE. -/
  | reservedCommand
  /-- Raised by a sequencer step whose `SEQ` holds a reserved code, which never happens from reset (R56). SAFE. -/
  | reservedMicroOp
  /-- Raised by a host step that writes the buffer while `busy = 1`, or in the step that accepts a PARSE: the host has
  no such move (R64, R123). UNSAFE for a host that breaks this duty (log entry 8). -/
  | bufferWriteDuringParse
  /-- Raised by a host step that writes a buffer index that does not exist (R36). SAFE. -/
  | bufferIndexOutsideSpace
deriving DecidableEq, Repr

/-- The ROM buffer (R36): the bytes the host has placed, as index and byte, in the canonical form `Memory.wf`. -/
abbrev Memory := List Host.Cell

/-- The block's registers (R13), the host's `len` wire and buffer (R31, R36), and the events to come (R63). -/
structure State where
  /-- `SEQ`: the micro-operation the sequencer executes next (R14). -/
  seq : BitVec 4
  /-- `STATUS`: the outcome code (R17). -/
  status : BitVec 2
  /-- `LEN_R`: the buffer length sampled at PARSE (R19). -/
  lenR : Index
  /-- `IDX`: the index of the next byte the checksum reads (R20). -/
  idx : Index
  /-- `SUM`: the checksum accumulator (R21). -/
  sum : Half
  /-- `ENTRY0`: the first entry-point word (R22). -/
  entry0 : Half
  /-- `ENTRY1`: the second entry-point word (R22). -/
  entry1 : Half
  /-- `TITLE[0..15]` (R23). -/
  title : Vector Byte 16
  /-- `CART`: the cartridge-type code (R24). -/
  cart : BitVec 3
  /-- `DEST`: the destination code (R25). -/
  dest : BitVec 1
  /-- `ROMSZ`: the ROM bank-count placeholder (R26). -/
  romSz : Half
  /-- `RAMSZ`: the RAM bank-count placeholder (R26). -/
  ramSz : Half
  /-- `CKSUM`: the declared checksum (R27). -/
  cksum : Half
  /-- The input port `len`: the value the host last drove (R31). -/
  len : Index
  /-- The ROM buffer, owned by the host (R36). -/
  buf : Memory
  /-- The model's own field: the steps to come, first to run first; when none is listed, the sequencer steps
  (log entry 2). -/
  pending : List Event
deriving DecidableEq, Repr

/-- The machine right after reset: every register of R13 at its reset value (R117); `len`, the buffer and the events
to come as log entries 1, 2 and 11 say. -/
def State.reset : State where
  seq := 0x0
  status := 0b00
  lenR := 0
  idx := 0
  sum := 0x0000
  entry0 := 0x0000
  entry1 := 0x0000
  title := Vector.replicate 16 0x00
  cart := 0b000
  dest := 0
  romSz := 0x0000
  ramSz := 0x0000
  cksum := 0x0000
  len := 0
  buf := []
  pending := []

end Sys2Proof.Machine
end

