-- ==== Sys2Proof/Machine/Flags.lean ====
section
/-! DEFINITION. The outcome codes and the derived status indications (R15 to R18, R30, R58). -/

namespace Sys2Proof.Machine

/-- The four outcomes of a parse (R101). -/
inductive ParseOutcome where
  | ok
  | romTooShort
  | badChecksum
  | truncated
deriving DecidableEq, Repr

/-- The `STATUS` encoding (R58). -/
def ParseOutcome.code : ParseOutcome → BitVec 2
  | .ok => 0b00
  | .romTooShort => 0b01
  | .badChecksum => 0b10
  | .truncated => 0b11

/-- The outcome a `STATUS` code names (R58). -/
def ParseOutcome.ofCode (c : BitVec 2) : ParseOutcome :=
  match c with
  | 0b00#2 => .ok
  | 0b01#2 => .romTooShort
  | 0b10#2 => .badChecksum
  | 0b11#2 => .truncated

/-- `busy = (SEQ ∉ {IDLE, DONE})` (R15). -/
def State.busy (s : State) : Bool := s.seq != Seq.idle && s.seq != Seq.done

/-- `done = (SEQ = DONE)` (R16). -/
def State.isDone (s : State) : Bool := s.seq == Seq.done

/-- The outcome `STATUS` names; meaningful only when `done = 1` (R17). -/
def State.outcome (s : State) : ParseOutcome := ParseOutcome.ofCode s.status

/-- `hdr_valid = done ∧ (STATUS = OK)` (R18). -/
def State.hdrValid (s : State) : Bool := s.isDone && s.status == ParseOutcome.ok.code

end Sys2Proof.Machine
end

