-- ==== Sys2Proof/Machine/Ops.lean ====
section
/-! DEFINITION. The shared operations: the ROM buffer, `MemRead`, `BE16`, raising an outcome, starting a parse, reset. -/

namespace Sys2Proof.Machine

/-! ## The ROM buffer (R36) -/

/-- What an index the host has not written reads as: the model's choice (log entry 1). -/
def Memory.unlisted : Byte := 0x00

/-- The canonical form: indices strictly rising, each in the index space, none at the value of an unlisted index. -/
abbrev Memory.wf (m : Memory) : Prop :=
  m.Pairwise (fun c d => c.1 < d.1) ∧ ∀ c ∈ m, c.1 < Config.indexSpace ∧ c.2 ≠ Memory.unlisted

/-- The byte at an index. -/
def readByte : Memory → Nat → Byte
  | [], _ => Memory.unlisted
  | (a, b) :: m, i => if a = i then b else readByte m i

/-- A cell put before cells of larger index, kept out when it holds what an unlisted index reads as. -/
def consCell (i : Nat) (b : Byte) (m : Memory) : Memory :=
  if b = Memory.unlisted then m else (i, b) :: m

/-- One byte written at an index, keeping the canonical form. -/
def writeByte : Memory → Nat → Byte → Memory
  | [], i, b => consCell i b []
  | (a, x) :: m, i, b =>
    if i < a then consCell i b ((a, x) :: m)
    else if i = a then consCell i b m
    else (a, x) :: writeByte m i b

/-- Several bytes written, in order (`LOADBUF`, R61). -/
def writeCells : Memory → List (Nat × Byte) → Memory
  | m, [] => m
  | m, (i, b) :: cs => writeCells (writeByte m i b) cs

/-! ## Reading the buffer (R37, R39) -/

/-- `MemRead(i, 1)`: the byte at `i` when `i < LEN_R`; none where R37 says `raise Truncated()`. -/
def memRead (s : State) (i : Nat) : Option Byte :=
  if i < s.lenR.toNat then some (readByte s.buf i) else none

/-- `MemRead` of `n` bytes in rising order from `i`; none as soon as one of them raises. -/
def memReads (s : State) : Nat → Nat → Option (List Byte)
  | _, 0 => some []
  | i, n + 1 => do
    let b ← memRead s i
    let bs ← memReads s (i + 1) n
    return b :: bs

/-- `BE16(hi, lo) = {hi, lo}`: the byte at the lower index in bits 15 to 8 (R39). -/
def be16 (hi lo : Byte) : Half := hi ++ lo

/-! ## Ending a parse with an outcome, and starting the next one -/

/-- `raise E()` (R11, R107): `STATUS <- code(E)` and `SEQ <- DONE`, and no other register write. This is the block's
whole error entry: it saves no other state, and control goes to the fixed state `DONE`. -/
def State.raise (e : ParseOutcome) (s : State) : State := { s with status := e.code, seq := Seq.done }

/-- What an accepted PARSE writes (R66). It is the only way out of an error but a reset (R108). -/
def State.beginParse (s : State) : State :=
  { s with
    lenR := s.len
    idx := 0
    sum := 0x0000
    entry0 := 0x0000
    entry1 := 0x0000
    title := Vector.replicate 16 0x00
    cart := 0b000
    dest := 0
    romSz := 0x0000
    ramSz := 0x0000
    cksum := 0x0000
    status := 0b00
    seq := Seq.lenchk }

/-- What a host step with `rst = 1` writes (R117): every register of R13 to its reset value, and nothing of the host's. -/
def State.resetRegisters (s : State) : State :=
  { State.reset with len := s.len, buf := s.buf, pending := s.pending }

/-- A micro-operation's end: its register writes together (R12), or `raise Truncated()` where one of its reads raised
(R11, R37). -/
def orTruncated (s : State) (r : Option State) : Host.Outcome State Fault Refusal :=
  match r with
  | some t => .next t
  | none => .next (s.raise .truncated)

end Sys2Proof.Machine
end

