-- ==== Sys2Proof/Machine/Operands.lean ====
section
/-! DEFINITION. The implicit operands of the micro-operations: fixed offsets, and the maps applied to the bytes read
(R5, R42, R54, R76, R82, R87). -/

namespace Sys2Proof.Machine

/-! ## Fixed offsets (R5) -/

abbrev headerOffset : Nat := 0x0100
abbrev headerLength : Nat := 0x004F
/-- `MIN_LEN = HEADER_OFFSET + HEADER_LENGTH`. -/
abbrev minLen : Nat := headerOffset + headerLength
abbrev titleOff : Nat := 0x134
/-- `TITLE_COPY`: the title bytes copied from the buffer. -/
abbrev titleCopy : Nat := 15
abbrev cartOff : Nat := 0x147
abbrev destOff : Nat := 0x14A
/-- `CKSUM_OFF`: the declared checksum's high byte; the low byte is the next one. -/
abbrev cksumOff : Nat := 0x14E
abbrev skipLo : Nat := 0x14E
abbrev skipHi : Nat := 0x14F

/-- The skip range of the sum, `[SKIP_LO, SKIP_HI]`, both inclusive (R93). -/
def skipped (i : Nat) : Bool := decide (skipLo ≤ i) && decide (i ≤ skipHi)

/-! ## The title (R79) -/

/-- The title register from the bytes copied: byte `k` for `k < 15`, and `TITLE[15]` = 0x00. -/
def titleOf (bs : List Byte) : Vector Byte 16 :=
  Vector.ofFn fun k => if k.val < titleCopy then bs.getD k.val 0x00 else 0x00

/-! ## The destination code (R60, R82) -/

/-- `DestMap(b)`: 0 (`Japanese`) for the byte 0x00, 1 (`NonJapanese`) for every other byte. -/
def destMap (b : Byte) : BitVec 1 := if b = 0x00 then 0 else 1

/-! ## The cartridge type (R59, R87) -/

/-- The cartridge-type variants. -/
inductive CartType where
  | none
  | type1
  | type2
  | type3
  | type5
deriving DecidableEq, Repr

/-- The `CART` encoding (R59). -/
def CartType.code : CartType → BitVec 3
  | .none => 0b000
  | .type1 => 0b001
  | .type2 => 0b010
  | .type3 => 0b011
  | .type5 => 0b101

/-- A row of the lookup table: the raw byte values from `lo` to `hi`, both inclusive, and their variant. -/
structure CartRow where
  lo : Nat
  hi : Nat
  variant : CartType
deriving DecidableEq, Repr

/-- Whether a byte falls in a row. -/
def CartRow.covers (r : CartRow) (b : Byte) : Bool := decide (r.lo ≤ b.toNat) && decide (b.toNat ≤ r.hi)

/-- The named rows of R87, as plain data (R92). -/
def cartTable : List CartRow :=
  [⟨0x01, 0x03, .type1⟩, ⟨0x05, 0x06, .type2⟩, ⟨0x12, 0x13, .type3⟩, ⟨0x19, 0x1E, .type5⟩]

/-- The ordered lookup: the first row that covers the byte wins, and an unmatched byte is `None` (R87, R89). -/
def cartLookup : List CartRow → Byte → CartType
  | [], _ => .none
  | r :: rs, b => if r.covers b then r.variant else cartLookup rs b

/-- `CartLUT(b)` (R87). -/
def cartLUT (b : Byte) : CartType := cartLookup cartTable b

/-! ## The indices a micro-operation reads (R53, column "reads") -/

/-- The indices of the `MemRead`s of an instruction's pseudocode in a state, in order. EXT_CKSUM reads nothing when it
raises first (R83), and SUM reads nothing at the end of the loop or in the skip range (R93). -/
def operandIndices (i : Instr) (s : State) : List Nat :=
  match i with
  | .extEntry => [Config.entryBase, Config.entryBase + 1, Config.entryBase + 2, Config.entryBase + 3]
  | .extTitle => List.range' titleOff titleCopy
  | .extCart => [cartOff]
  | .extDest => [destOff]
  | .extCksum => if s.lenR.toNat ≤ minLen then [] else [cksumOff, cksumOff + 1]
  | .sum => if s.idx = s.lenR ∨ skipped s.idx.toNat then [] else [s.idx.toNat]
  | .nop | .parse | .reservedCmd10 | .reservedCmd11 | .idle | .lenchk | .extSizes | .compare | .done
  | .reservedSeqB | .reservedSeqCF _ => []

/-- The indices driven on `rd_addr` in the step that executes an instruction (R37): its reads in order, up to the first
one outside the buffer, which raises and is not driven (log entry 14). -/
def busReads (i : Instr) (s : State) : List Nat :=
  (operandIndices i s).takeWhile fun a => decide (a < s.lenR.toNat)

end Sys2Proof.Machine
end

