-- ==== Sys2Proof/Machine/CartridgeType.lean ====
section
/-! DEFINITION. The cartridge-type extraction, EXT_CART (R90). -/

namespace Sys2Proof.Machine

/-- `EXT_CART` (R90): the code of the variant the lookup table gives the byte at 0x147. -/
def execExtCart (s : State) : Host.Outcome State Fault Refusal :=
  orTruncated s do
    let b ← memRead s cartOff
    return { s with cart := (cartLUT b).code, seq := Seq.extDest }

end Sys2Proof.Machine
end

