-- ==== Sys2Proof/Machine/Checksum.lean ====
section
/-! DEFINITION. The checksum validator: SUM and COMPARE (R93, R94). -/

namespace Sys2Proof.Machine

/-- `SUM` (R93): the loop ends when `IDX = LEN_R`; otherwise the byte at `IDX` is added modulo 2^16, unless `IDX` lies in
the skip range, and `IDX` moves on by one. -/
def execSum (s : State) : Host.Outcome State Fault Refusal :=
  if s.idx = s.lenR then .next { s with seq := Seq.compare }
  else if skipped s.idx.toNat then .next { s with idx := s.idx + 1 }
  else orTruncated s do
    let b ← memRead s s.idx.toNat
    return { s with sum := s.sum + b.setWidth 16, idx := s.idx + 1 }

/-- `COMPARE` (R94): 16-bit equality of the computed and the declared checksum. -/
def execCompare (s : State) : Host.Outcome State Fault Refusal :=
  if s.sum = s.cksum then .next { s with status := ParseOutcome.ok.code, seq := Seq.done }
  else .next (s.raise .badChecksum)

end Sys2Proof.Machine
end

