-- ==== Sys2Proof/Machine/Commands.lean ====
section
/-! DEFINITION. The host's commands: NOP, PARSE and the reserved codes (R65 to R68). -/

namespace Sys2Proof.Machine

/-- `NOP` (R65): no register is written. -/
def execNop (s : State) : Host.Outcome State Fault Refusal := .next s

/-- `PARSE`: accepted when `busy = 0` (R66), ignored and not queued when `busy = 1` (R67). -/
def execParse (s : State) : Host.Outcome State Fault Refusal :=
  if s.busy then .next s else .next s.beginParse

/-- The reserved command 0b10 (R55, R68): refused in every state. -/
def execReservedCmd10 (_s : State) : Host.Outcome State Fault Refusal := .refused .reservedCommand

/-- The reserved command 0b11 (R55, R68): refused in every state. -/
def execReservedCmd11 (_s : State) : Host.Outcome State Fault Refusal := .refused .reservedCommand

end Sys2Proof.Machine
end

