-- ==== Sys2Proof/Machine/FieldExtraction.lean ====
section
/-! DEFINITION. The field extractions EXT_ENTRY, EXT_TITLE, EXT_DEST, EXT_CKSUM and EXT_SIZES (R76 to R86). -/

namespace Sys2Proof.Machine

/-- The entry-point extraction for a given `ENTRY_BASE` (R6, R78): two big-endian words from four bytes. -/
def extEntryAt (base : Nat) (s : State) : Option State := do
  let b0 ← memRead s base
  let b1 ← memRead s (base + 1)
  let b2 ← memRead s (base + 2)
  let b3 ← memRead s (base + 3)
  return { s with entry0 := be16 b0 b1, entry1 := be16 b2 b3, seq := Seq.extTitle }

/-- `EXT_ENTRY` (R78). -/
def execExtEntry (s : State) : Host.Outcome State Fault Refusal :=
  orTruncated s (extEntryAt Config.entryBase s)

/-- `EXT_TITLE` (R79): 15 bytes copied raw, then the zero byte `TITLE[15]`. -/
def execExtTitle (s : State) : Host.Outcome State Fault Refusal :=
  orTruncated s do
    let bs ← memReads s titleOff titleCopy
    return { s with title := titleOf bs, seq := Seq.extCart }

/-- `EXT_DEST` (R81). -/
def execExtDest (s : State) : Host.Outcome State Fault Refusal :=
  orTruncated s do
    let b ← memRead s destOff
    return { s with dest := destMap b, seq := Seq.extCksum }

/-- `EXT_CKSUM` (R83): `raise Truncated()` without a read when `LEN_R <= 0x14F`, otherwise the declared checksum. -/
def execExtCksum (s : State) : Host.Outcome State Fault Refusal :=
  if s.lenR.toNat ≤ minLen then .next (s.raise .truncated)
  else orTruncated s do
    let hi ← memRead s cksumOff
    let lo ← memRead s (cksumOff + 1)
    return { s with cksum := be16 hi lo, seq := Seq.extSizes }

/-- `EXT_SIZES` (R86): both placeholders are 0x0000; no byte is read. -/
def execExtSizes (s : State) : Host.Outcome State Fault Refusal :=
  .next { s with romSz := 0x0000, ramSz := 0x0000, seq := Seq.sum }

end Sys2Proof.Machine
end

