-- ==== Sys2Proof/Machine/Hold.lean ====
section
/-! DEFINITION. The hold states IDLE and DONE (R69, R70), and the `SEQ` codes that are never held (R56). -/

namespace Sys2Proof.Machine

/-- `IDLE` (R69): the sequencer has no step here; only an accepted PARSE or a reset leaves it. No register changes
(R116; log entry 3). -/
def execIdle (s : State) : Host.Outcome State Fault Refusal := .next s

/-- `DONE` (R70): the sequencer has no step here, and no register changes (log entry 3). -/
def execDone (s : State) : Host.Outcome State Fault Refusal := .next s

/-- `SEQ` = 0xB, never held (R53, R56): no effect is given (log entry 10). -/
def execReservedSeqB (_s : State) : Host.Outcome State Fault Refusal := .refused .reservedMicroOp

/-- `SEQ` = 0xC to 0xF, never held (R53, R56): no effect is given (log entry 10). -/
def execReservedSeqCF (_code : BitVec 4) (_s : State) : Host.Outcome State Fault Refusal := .refused .reservedMicroOp

end Sys2Proof.Machine
end

