-- ==== Sys2Proof/Machine/LengthCheck.lean ====
section
/-! DEFINITION. The length check, LENCHK (R73). -/

namespace Sys2Proof.Machine

/-- `LENCHK` (R73): `RomTooShort` when `LEN_R < MIN_LEN`; no byte is read. -/
def execLenchk (s : State) : Host.Outcome State Fault Refusal :=
  if s.lenR.toNat < minLen then .next (s.raise .romTooShort)
  else .next { s with seq := Seq.extEntry }

end Sys2Proof.Machine
end

