-- ==== Sys2Proof/Machine/Dispatch.lean ====
section
/-! DEFINITION. The meaning of every instruction, one arm per constructor. -/

namespace Sys2Proof.Machine

def exec (i : Instr) (s : State) : Host.Outcome State Fault Refusal :=
  match i with
  -- host commands, format CMD2
  | .nop => Sys2Proof.Machine.execNop s
  | .parse => Sys2Proof.Machine.execParse s
  | .reservedCmd10 => Sys2Proof.Machine.execReservedCmd10 s
  | .reservedCmd11 => Sys2Proof.Machine.execReservedCmd11 s
  -- micro-operations, format SEQ4
  | .idle => Sys2Proof.Machine.execIdle s
  | .lenchk => Sys2Proof.Machine.execLenchk s
  | .extEntry => Sys2Proof.Machine.execExtEntry s
  | .extTitle => Sys2Proof.Machine.execExtTitle s
  | .extCart => Sys2Proof.Machine.execExtCart s
  | .extDest => Sys2Proof.Machine.execExtDest s
  | .extCksum => Sys2Proof.Machine.execExtCksum s
  | .extSizes => Sys2Proof.Machine.execExtSizes s
  | .sum => Sys2Proof.Machine.execSum s
  | .compare => Sys2Proof.Machine.execCompare s
  | .done => Sys2Proof.Machine.execDone s
  | .reservedSeqB => Sys2Proof.Machine.execReservedSeqB s
  | .reservedSeqCF code => Sys2Proof.Machine.execReservedSeqCF code s

end Sys2Proof.Machine
end

