-- ==== Sys2Proof/Machine/Outputs.lean ====
section
/-! DEFINITION. What the host sees: the output ports and the observation of a parse (R32 to R34). -/

namespace Sys2Proof.Machine

/-- The record a successful parse yields (R34), the source's `RomHeader`. -/
structure Record where
  entryPoint : Half × Half
  title : Vector Byte 16
  cartridgeType : BitVec 3
  romSize : Half
  ramSize : Half
  destinationCode : BitVec 1
  checksum : Half
deriving DecidableEq, Repr

/-- `Record(S)` (R34). -/
def State.record (s : State) : Record where
  entryPoint := (s.entry0, s.entry1)
  title := s.title
  cartridgeType := s.cart
  romSize := s.romSz
  ramSize := s.ramSz
  destinationCode := s.dest
  checksum := s.cksum

/-- The observation of a parse (R34). -/
inductive Observation where
  /-- No outcome yet. -/
  | none
  /-- `OK`, with the record. -/
  | record (r : Record)
  /-- `RomTooShort` or `BadChecksum`, without a record. -/
  | error (e : ParseOutcome)
  /-- `Truncated`: a fault, from which no claim may take a value (R34, R104). -/
  | fault
deriving DecidableEq, Repr

/-- `Observe(S)` (R34). -/
def observe (s : State) : Observation :=
  if s.isDone then
    match s.outcome with
    | .ok => .record s.record
    | .truncated => .fault
    | .romTooShort => .error .romTooShort
    | .badChecksum => .error .badChecksum
  else .none

/-- Bytes packed with byte `k` at bit `8k`. -/
def packBytes : List Byte → Nat
  | [] => 0
  | b :: bs => b.toNat + 256 * packBytes bs

/-- The `title` port: `TITLE[k]` in bits `[8k+7:8k]` (R33). -/
def titlePort (t : Vector Byte 16) : BitVec 128 := BitVec.ofNat 128 (packBytes t.toList)

/-- The output ports that carry registers or signals derived from them (R32). They are wires and always carry a value;
what a claim may take from them is `observe` (R34, R124; log entry 15). -/
structure Ports where
  busy : Bool
  done : Bool
  status : BitVec 2
  hdrValid : Bool
  entry0 : Half
  entry1 : Half
  title : BitVec 128
  cartType : BitVec 3
  dest : BitVec 1
  romSize : Half
  ramSize : Half
  checksum : Half
deriving DecidableEq, Repr

/-- The output ports of a state (R32). No port carries `SUM`, `IDX` or `LEN_R` (R35). -/
def ports (s : State) : Ports where
  busy := s.busy
  done := s.isDone
  status := s.status
  hdrValid := s.hdrValid
  entry0 := s.entry0
  entry1 := s.entry1
  title := titlePort s.title
  cartType := s.cart
  dest := s.dest
  romSize := s.romSz
  ramSize := s.ramSz
  checksum := s.cksum

end Sys2Proof.Machine
end

