-- ==== Sys2Proof/Machine/HostMoves.lean ====
section
/-! DEFINITION. The two kinds of step: a sequencer step and a host step (R63, R64, R72). -/

namespace Sys2Proof.Machine

/-- A sequencer step executes the micro-operation `SEQ` names (R63). -/
def sequencerStep (s : State) : Host.Outcome State Fault Refusal := exec (decode (.seq4 s.seq)) s

/-- Whether a host step would have the block accept a PARSE (R66). -/
def accepts (h : HostStep) (s : State) : Bool := !h.rst && h.cmd == 0b01 && !s.busy

/-- Whether the host may write the buffer in this step: `busy = 0` (R64), and no PARSE accepted in the step (R123). -/
def mayWrite (h : HostStep) (s : State) : Bool := !s.busy && !accepts h s

/-- What the host drives in its step: `len` and buffer bytes (R61, R63, R64). -/
def driveInputs (h : HostStep) (s : State) : State :=
  { s with len := h.drive.getD s.len, buf := writeCells s.buf h.writes }

/-- What the block does with the `rst` and `cmd` it samples: a reset, whatever `cmd` holds (R63, R117), or the
command (R52). -/
def sampleCommand (h : HostStep) (s : State) : Host.Outcome State Fault Refusal :=
  if h.rst then .next s.resetRegisters else exec (decode (.cmd2 h.cmd)) s

/-- The host's read of the output ports in its step: it sees the state `s` the step begins with and changes nothing,
and the observation of `Truncated` is a fault (R34, R64, R104; log entries 6 and 15). -/
def observeOutputs (h : HostStep) (s : State) (o : Host.Outcome State Fault Refusal) : Host.Outcome State Fault Refusal :=
  match o with
  | .next t => if h.read && observe s == .fault then .fault .truncatedObserved else .next t
  | .fault f => .fault f
  | .refused r => .refused r

/-- A host step (R63, R64). A buffer write the host has no move for is refused (log entries 8 and 9). Otherwise the
host's values are driven, the block samples `rst` and `cmd` (log entry 7), and a read observes the outputs. -/
def hostStep (h : HostStep) (s : State) : Host.Outcome State Fault Refusal :=
  if !h.writes.isEmpty && !mayWrite h s then .refused .bufferWriteDuringParse
  else if !h.wellFormed then .refused .bufferIndexOutsideSpace
  else observeOutputs h s (sampleCommand h (driveInputs h s))

/-- `WAITDONE` (R62): over when `done = 1`; otherwise the host issues one `NOP`, then the sequencer has a turn, then the
host waits on (log entry 16). -/
def waitForDone (s : State) : Host.Outcome State Fault Refusal :=
  if s.isDone then .next s
  else hostStep .nop { s with pending := .sequencer :: .waitDone :: s.pending }

/-- One event. -/
def runEvent (e : Event) (s : State) : Host.Outcome State Fault Refusal :=
  match e with
  | .sequencer => sequencerStep s
  | .host h => hostStep h s
  | .waitDone => waitForDone s

/-- The event that moves next: the first one listed, or the sequencer when none is (log entry 2). -/
def nextEvent (s : State) : Event := s.pending.headD .sequencer

/-- The indices driven on `rd_addr` in the next step, in order (R32, R37); a host step drives none. -/
def stepReads (s : State) : List Nat :=
  match nextEvent s with
  | .sequencer => busReads (decode (.seq4 s.seq)) s
  | .host _ | .waitDone => []

/-- `rd_en`: 1 during a step that reads the ROM buffer (R32). -/
def stepReadEnable (s : State) : Bool := !(stepReads s).isEmpty

/-- The state in which the next step runs the word `w` as an instruction: a command is driven by the host, a
micro-operation's code stands in `SEQ` and the sequencer moves next (log entry 5). -/
def placeWord (f : Format) (w : Nat) (s : State) : State :=
  match f with
  | .cmd2 => { s with pending := .host { cmd := BitVec.ofNat 2 w } :: s.pending }
  | .seq4 => { s with seq := BitVec.ofNat 4 w, pending := .sequencer :: s.pending }

end Sys2Proof.Machine
end

