-- ==== Sys2Proof/Machine/Step.lean ====
section
/-! DEFINITION. One step of a run: the next event is taken off the list and runs (R63). -/

namespace Sys2Proof.Machine

/-- One step of a run (R63, R72). -/
def step (s : State) : Host.Outcome State Fault Refusal :=
  runEvent (nextEvent s) { s with pending := s.pending.tail }

/-- The state whose next step runs the table word (log entries 4 and 5). -/
def State.withFetchWord (s : State) (nbits w : Nat) : State := placeWord (formatOfBits nbits) w s

end Sys2Proof.Machine
end

