-- ==== Sys2Proof/Machine/ParseFunction.lean ====
section
/-! DEFINITION. The whole parse as one function of the length and the buffer, with its step count (R95, R98, R99). The
machine does not use it: statements compare the machine with it. -/

namespace Sys2Proof.Machine

/-- The exact sum of the bytes below `n`, less the skip range, over natural numbers (R95). -/
def byteSum (buf : Nat → Byte) (n : Nat) : Nat := ∑ i ∈ Finset.range n, if 0x14E ≤ i ∧ i ≤ 0x14F then 0 else (buf i).toNat

/-- `Checksum(buf, L)` (R95). -/
def checksum (buf : Nat → Byte) (L : Nat) : Half := BitVec.ofNat 16 (byteSum buf L)

/-- The declared checksum, big-endian at 0x14E and 0x14F (R83). -/
def declaredChecksum (buf : Nat → Byte) : Half := be16 (buf 0x14E) (buf 0x14F)

/-- The record of a buffer (R98). -/
def recordOf (buf : Nat → Byte) : Record where
  entryPoint := (be16 (buf 0x100) (buf 0x101), be16 (buf 0x102) (buf 0x103))
  title := Vector.ofFn fun k => if k.val < 15 then buf (0x134 + k.val) else 0x00
  cartridgeType := (cartLUT (buf 0x147)).code
  romSize := 0x0000
  ramSize := 0x0000
  destinationCode := destMap (buf 0x14A)
  checksum := declaredChecksum buf

/-- `Parse(L, buf)` (R98); `Truncated` is observed as a fault (R34). -/
def parseFunction (L : Nat) (buf : Nat → Byte) : Observation :=
  if L < 0x14F then .error .romTooShort
  else if L = 0x14F then .fault
  else if checksum buf L = declaredChecksum buf then .record (recordOf buf)
  else .error .badChecksum

/-- The number of sequencer steps a parse takes (R99). -/
def stepCount (L : Nat) : Nat := if L < 0x14F then 1 else if L = 0x14F then 6 else L + 9

/-- The number of sequencer steps left of a parse, at any point of it (R62, R99): before SUM those of the whole parse
less the micro-operations done, in SUM one for each index left, the final one and COMPARE. -/
def stepsLeft (s : State) : Nat :=
  if s.busy = false then 0
  else if s.seq.toNat < 8 then stepCount s.lenR.toNat - (s.seq.toNat - 1)
  else if s.seq.toNat = 8 then s.lenR.toNat - s.idx.toNat + 2
  else 1

end Sys2Proof.Machine
end

