-- ==== Sys2Proof/Safety.lean ====
section
/-! DEFINITION. What counts as a safe run, and the predicates on states and schedules that claims are written in. -/

namespace Sys2Proof.Machine

/-- A run of `n` steps is safe when it meets no fault and no refusal and does not end in the outcome `Truncated`, which a
model treats as a fault (R104). -/
def SafeRun (n : Nat) (s : State) : Prop := ∃ t, Sys2Proof.core.run n s = .next t ∧ observe t ≠ .fault

/-- A parse that has just been accepted: what R66 leaves in the registers the parse goes on from. -/
structure FreshParse (s : State) : Prop where
  seq : s.seq = Seq.lenchk
  idx : s.idx = 0
  sum : s.sum = 0

/-- An event that neither resets, nor writes the buffer, nor drives a reserved command: what R72 lets interleave with a
parse. A sequencer step, a `NOP`, a `PARSE`, a `len` change and a read are quiet; a `WAITDONE` is no single step and has
statements of its own. -/
def quietEvent : Event → Bool
  | .sequencer => true
  | .host h => !h.rst && h.writes.isEmpty && (h.cmd == 0b00 || h.cmd == 0b01)
  | .waitDone => false

/-- A host step the spec gives the host (R64): it writes the buffer only when it may, only at indices that exist, and it
does not read the outputs of a parse that ended in `Truncated`. -/
structure HostMayMove (h : HostStep) (s : State) : Prop where
  writes : h.writes = [] ∨ mayWrite h s = true
  inSpace : h.wellFormed = true
  read : h.read = true → observe s ≠ .fault

/-- The registers of R13 agree, and so does the buffer. -/
structure SameBlock (s t : State) : Prop where
  seq : t.seq = s.seq
  status : t.status = s.status
  lenR : t.lenR = s.lenR
  idx : t.idx = s.idx
  sum : t.sum = s.sum
  entry0 : t.entry0 = s.entry0
  entry1 : t.entry1 = s.entry1
  title : t.title = s.title
  cart : t.cart = s.cart
  dest : t.dest = s.dest
  romSz : t.romSz = s.romSz
  ramSz : t.ramSz = s.ramSz
  cksum : t.cksum = s.cksum
  buf : t.buf = s.buf

/-- Why the outcome in `STATUS` holds, when a parse is over (R101). -/
def OutcomeCause (s : State) : Prop :=
  match s.outcome with
  | .ok => 0x150 ≤ s.lenR.toNat ∧ s.sum = s.cksum
  | .romTooShort => s.lenR.toNat < 0x14F
  | .badChecksum => 0x150 ≤ s.lenR.toNat ∧ s.sum ≠ s.cksum
  | .truncated => s.lenR.toNat = 0x14F

/-- The machine's control invariant: what R14, R17, R20, R23, R26, R56, R75, R83, R91, R93 and R101 say of every state
reached from reset. -/
structure Inv (s : State) : Prop where
  /-- `SEQ ≤ 0xA` (R56). -/
  seq_legal : s.seq.toNat ≤ 0xA
  /-- `CART` never holds 0b100, 0b110 or 0b111 (R91). -/
  cart_legal : s.cart ≠ 0b100 ∧ s.cart ≠ 0b110 ∧ s.cart ≠ 0b111
  /-- `ROMSZ` and `RAMSZ` always hold 0x0000 (R26). -/
  sizes_zero : s.romSz = 0x0000 ∧ s.ramSz = 0x0000
  /-- `TITLE[15]` is 0x00 (R23). -/
  pad_zero : s.title[15] = 0x00
  /-- While `done = 0`, `STATUS` holds 0b00 (R17). -/
  status_clear : s.isDone = false → s.status = 0b00
  /-- `IDX` never exceeds `LEN_R` (R20). -/
  idx_le : s.idx.toNat ≤ s.lenR.toNat
  /-- The buffer keeps its canonical form. -/
  buf_wf : Memory.wf s.buf
  /-- A parse past LENCHK has `LEN_R ≥ 0x14F` (R75). -/
  len_passed : 2 ≤ s.seq.toNat → s.seq.toNat ≤ 9 → 0x14F ≤ s.lenR.toNat
  /-- A parse past EXT_CKSUM has `LEN_R ≥ 0x150` (R83, R93). -/
  len_complete : 7 ≤ s.seq.toNat → s.seq.toNat ≤ 9 → 0x150 ≤ s.lenR.toNat
  /-- Before SUM, `IDX` and `SUM` are as PARSE or reset left them (R66, R117). -/
  loop_clear : s.seq.toNat < 8 → s.idx = 0 ∧ s.sum = 0
  /-- In SUM and COMPARE, `SUM` is the sum of the bytes before `IDX`, less the skip range, modulo 2^16 (R93). -/
  sum_partial : 8 ≤ s.seq.toNat → s.seq.toNat ≤ 9 → s.sum = BitVec.ofNat 16 (byteSum (readByte s.buf) s.idx.toNat)
  /-- COMPARE comes at the end of the loop (R93). -/
  loop_over : s.seq = Seq.compare → s.idx = s.lenR
  /-- In DONE, `STATUS` names the outcome whose cause holds (R101). -/
  outcome_cause : s.isDone = true → OutcomeCause s

/-- While a parse runs, each field register holds zero until its micro-operation completes, and then the bytes of the
buffer that R98 gives (R124). -/
structure FieldsInv (s : State) : Prop where
  entry_clear : s.seq.toNat ≤ 2 → s.entry0 = 0 ∧ s.entry1 = 0
  entry : 3 ≤ s.seq.toNat → s.seq.toNat ≤ 9 → (s.entry0, s.entry1) = (recordOf (readByte s.buf)).entryPoint
  title_clear : s.seq.toNat ≤ 3 → s.title = Vector.replicate 16 0x00
  title : 4 ≤ s.seq.toNat → s.seq.toNat ≤ 9 → s.title = (recordOf (readByte s.buf)).title
  cart_clear : s.seq.toNat ≤ 4 → s.cart = 0
  cart : 5 ≤ s.seq.toNat → s.seq.toNat ≤ 9 → s.cart = (recordOf (readByte s.buf)).cartridgeType
  dest_clear : s.seq.toNat ≤ 5 → s.dest = 0
  dest : 6 ≤ s.seq.toNat → s.seq.toNat ≤ 9 → s.dest = (recordOf (readByte s.buf)).destinationCode
  cksum_clear : s.seq.toNat ≤ 6 → s.cksum = 0
  cksum : 7 ≤ s.seq.toNat → s.seq.toNat ≤ 9 → s.cksum = declaredChecksum (readByte s.buf)

end Sys2Proof.Machine
end

