-- ==== Sys2Proof/Certificates/Slice0/Obligations.lean ====
section
/-! DEFINITION. The statements for the provers. -/

open Sys2Proof Sys2Proof.Machine

/-! ## Encoding -/

/-- R52, R53: every code decodes to an instruction whose encoding it is, and decoding an encoded well-formed instruction
gives it back; so no bit of a code is dropped and no two instructions share one. -/
def Obligations.DecodeAndEncodeAgree : Prop :=
  (∀ i : Instr, i.wellFormed = true → decode (encode i) = i) ∧
    ∀ w : CodeWord, (decode w).wellFormed = true ∧ encode (decode w) = w

/-- R52, R53: words written out from the spec's two tables. -/
def Obligations.TableWordsDecode : Prop :=
  decode (.cmd2 0b00) = .nop ∧ decode (.cmd2 0b01) = .parse ∧ decode (.cmd2 0b11) = .reservedCmd11 ∧
    decode (.seq4 0b0001) = .lenchk ∧ decode (.seq4 0b0010) = .extEntry ∧ decode (.seq4 0b0100) = .extCart ∧
    decode (.seq4 0b1000) = .sum ∧ decode (.seq4 0b1001) = .compare ∧ decode (.seq4 0b1010) = .done ∧
    decode (.seq4 0b1011) = .reservedSeqB ∧ decode (.seq4 0b1110) = .reservedSeqCF 0b1110

/-- spec/opcode_table.json: every code falls in exactly one row, the row of the instruction it decodes to. -/
def Obligations.EachCodeFallsInItsOwnRow : Prop :=
  ∀ w : CodeWord, (opcodeTable.filter (·.covers w)).map (·.mnemonic) = [(decode w).mnemonic]

/-! ## One step of a run -/

/-- R63: a step runs the instruction its agent's code decodes to. With no event listed, or a sequencer event, it is the
micro-operation in `SEQ`; with a host step the host may make and no reset, it is the command on `cmd`, after the host's
values are driven. The step takes its event off the list and does nothing else around `exec`. -/
def Obligations.StepRunsTheDecodedInstruction : Prop :=
  (∀ s : State, s.pending = [] ∨ s.pending.head? = some .sequencer →
    step s = exec (decode (.seq4 s.seq)) { s with pending := s.pending.tail }) ∧
  ∀ (s : State) (h : HostStep) (p : List Event), s.pending = .host h :: p → h.rst = false → HostMayMove h s →
    step s = exec (decode (.cmd2 h.cmd))
      { s with len := h.drive.getD s.len, buf := writeCells s.buf h.writes, pending := p }

/-- R64, R68, R123, R36, R104: host steps that stop. A buffer write while busy or with a PARSE and no reset, and a write
outside the index space, are refused (log entries 8, 9). A step that writes nothing and reads the outputs of a `Truncated`
parse faults once its command has run (log entry 6): also with a reset or an accepted PARSE, since a read sees the state its
step begins with, which is the model's choice (log entry 15). `ReadingATruncatedOutcomeFaults` adds allowed writes. -/
def Obligations.HostStepsThatStop : Prop :=
  ∀ (s : State) (h : HostStep) (p : List Event), s.pending = .host h :: p →
    (h.writes ≠ [] → (s.busy = true ∨ (h.rst = false ∧ h.cmd = 0b01)) → step s = .refused .bufferWriteDuringParse) ∧
    ((∃ c ∈ h.writes, 2 ^ 32 ≤ c.1) → ∃ r, step s = .refused r) ∧
    (h.writes = [] → h.read = true → s.seq = 0xA → s.status = 0b11 → (h.rst = true ∨ h.cmd.toNat < 2) →
      step s = .fault .truncatedObserved)

/-- R55, R68: a reserved command is refused in every state, and a host step that drives one, without a reset, is refused
for the whole run. -/
def Obligations.ReservedCommandsAreRefused : Prop :=
  (∀ s : State, exec .reservedCmd10 s = .refused .reservedCommand ∧ exec .reservedCmd11 s = .refused .reservedCommand) ∧
  ∀ (s : State) (h : HostStep) (p : List Event), s.pending = .host h :: p → h.rst = false →
    (h.cmd = 0b10 ∨ h.cmd = 0b11) → ∃ r, ∀ n, Sys2Proof.core.run (n + 1) s = .refused r

/-- R53, R56 and log entry 10: a code of `SEQ` that is never held is refused by name. -/
def Obligations.ReservedMicroOpsAreRefused : Prop :=
  ∀ (s : State) (code : BitVec 4), exec .reservedSeqB s = .refused .reservedMicroOp ∧
    exec (.reservedSeqCF code) s = .refused .reservedMicroOp

/-- Every instruction but the reserved codes answers a next state, in every state; no instruction faults. Three parts are
the model's: a hold state completes as a step that changes nothing (log entry 3), the reserved codes of `SEQ` are refused
(log entry 10), and an extraction or SUM that reads outside the buffer, in states no parse reaches, completes by raising
`Truncated` (log entry 13). -/
def Obligations.EveryInstructionButTheReservedCompletes : Prop :=
  ∀ (i : Instr) (s : State), (∃ t, exec i s = .next t) ↔
    i ≠ .reservedCmd10 ∧ i ≠ .reservedCmd11 ∧ i ≠ .reservedSeqB ∧ ∀ code, i ≠ .reservedSeqCF code

/-! ## The host's commands and the hold states -/

/-- R65: `NOP` writes no register, in any state; a `NOP` step changes nothing, and while busy the sequencer keeps
running: the step after it runs the micro-operation in `SEQ`. -/
def Obligations.NopChangesNothing : Prop :=
  (∀ s : State, exec .nop s = .next s) ∧
  (∀ (s : State) (p : List Event), s.pending = .host .nop :: p → step s = .next { s with pending := p }) ∧
  ∀ s : State, s.busy = true → s.pending = [.host .nop] →
    Sys2Proof.core.run 2 s = exec (decode (.seq4 s.seq)) { s with pending := [] }

/-- R66: an accepted PARSE samples `len`, clears every other register and starts LENCHK; it reads no byte. -/
def Obligations.AcceptedParseStartsAFreshParse : Prop :=
  ∀ s : State, s.seq = 0x0 ∨ s.seq = 0xA → ∃ t : State, exec .parse s = .next t ∧ t =
      { seq := 0x1, status := 0b00, lenR := s.len, idx := 0, sum := 0x0000, entry0 := 0x0000, entry1 := 0x0000,
        title := Vector.replicate 16 0x00, cart := 0b000, dest := 0, romSz := 0x0000, ramSz := 0x0000, cksum := 0x0000,
        len := s.len, buf := s.buf, pending := s.pending } ∧
      t.busy = true ∧ t.isDone = false ∧ t.hdrValid = false ∧ busReads .parse s = []

/-- R67: a PARSE while busy writes no register, and is not queued: its step takes it off the events and leaves the rest. -/
def Obligations.ParseWhileBusyIsIgnored : Prop :=
  ∀ s : State, s.seq ≠ 0x0 → s.seq ≠ 0xA → exec .parse s = .next s ∧
    ∀ p : List Event, s.pending = .host .parse :: p → step s = .next { s with pending := p }

/-- R69, R70, R116: the hold states keep all state (log entry 3: the model shows a hold as a step that changes nothing). -/
def Obligations.HoldStatesKeepAllState : Prop :=
  (∀ s : State, exec .idle s = .next s ∧ exec .done s = .next s) ∧
  ∀ (s : State) (n : Nat), s.seq = 0x0 ∨ s.seq = 0xA → s.pending = [] → Sys2Proof.core.run n s = .next s

/-! ## The micro-operations -/

/-- R73: LENCHK. -/
def Obligations.LenchkRaisesExactlyBelowMinLen : Prop :=
  ∀ s : State,
    (s.lenR.toNat < 0x14F → exec .lenchk s = .next { s with status := 0b01, seq := 0xA }) ∧
    (0x14F ≤ s.lenR.toNat → exec .lenchk s = .next { s with seq := 0x2 }) ∧ busReads .lenchk s = []

/-- R78, where the buffer holds the four bytes: every state of a parse (R75). -/
def Obligations.ExtEntryReadsTwoBigEndianWords : Prop :=
  ∀ s : State, 0x103 < s.lenR.toNat → exec .extEntry s = .next { s with
    entry0 := readByte s.buf 0x100 ++ readByte s.buf 0x101
    entry1 := readByte s.buf 0x102 ++ readByte s.buf 0x103
    seq := 0x3 }

/-- R79, where the buffer holds the 15 bytes: every state of a parse (R75). -/
def Obligations.ExtTitleCopiesFifteenBytesAndPads : Prop :=
  ∀ s : State, 0x142 < s.lenR.toNat → ∃ v : Vector Byte 16, exec .extTitle s = .next { s with title := v, seq := 0x4 } ∧
    (∀ (k : Nat) (hk : k < 15), v[k] = readByte s.buf (0x134 + k)) ∧ v[15] = 0x00

/-- R90 with the table of R87, where the buffer holds the byte: every state of a parse (R75). -/
def Obligations.ExtCartClassifiesTheByte : Prop :=
  ∀ s : State, 0x147 < s.lenR.toNat → ∃ c : BitVec 3, exec .extCart s = .next { s with cart := c, seq := 0x5 } ∧
    c = let b := (readByte s.buf 0x147).toNat
        if b = 0x01 ∨ b = 0x02 ∨ b = 0x03 then 0b001
        else if b = 0x05 ∨ b = 0x06 then 0b010
        else if b = 0x12 ∨ b = 0x13 then 0b011
        else if 0x19 ≤ b ∧ b ≤ 0x1E then 0b101
        else 0b000

/-- R81 with the map of R82, where the buffer holds the byte: every state of a parse (R75). -/
def Obligations.ExtDestTellsZeroFromTheRest : Prop :=
  ∀ s : State, 0x14A < s.lenR.toNat →
    (readByte s.buf 0x14A = 0x00 → exec .extDest s = .next { s with dest := 0, seq := 0x6 }) ∧
    (readByte s.buf 0x14A ≠ 0x00 → exec .extDest s = .next { s with dest := 1, seq := 0x6 })

/-- R83: EXT_CKSUM. -/
def Obligations.ExtCksumRaisesOrReadsTheDeclaredSum : Prop :=
  ∀ s : State,
    (s.lenR.toNat ≤ 0x14F → exec .extCksum s = .next { s with status := 0b11, seq := 0xA } ∧ busReads .extCksum s = []) ∧
    (0x14F < s.lenR.toNat → exec .extCksum s = .next
      { s with cksum := readByte s.buf 0x14E ++ readByte s.buf 0x14F, seq := 0x7 })

/-- R86: EXT_SIZES. -/
def Obligations.ExtSizesClearsThePlaceholders : Prop :=
  ∀ s : State, exec .extSizes s = .next { s with romSz := 0x0000, ramSz := 0x0000, seq := 0x8 } ∧ busReads .extSizes s = []

/-- R93: SUM, in every state the loop can be in (`IDX ≤ LEN_R`, R20). -/
def Obligations.SumAddsOneByteModulo65536 : Prop :=
  ∀ s : State, s.idx.toNat ≤ s.lenR.toNat →
    (s.idx = s.lenR → exec .sum s = .next { s with seq := 0x9 } ∧ busReads .sum s = []) ∧
    (s.idx ≠ s.lenR → s.idx.toNat = 0x14E ∨ s.idx.toNat = 0x14F → busReads .sum s = [] ∧
      ∃ j : Index, exec .sum s = .next { s with idx := j } ∧ j.toNat = s.idx.toNat + 1) ∧
    (s.idx ≠ s.lenR → s.idx.toNat ≠ 0x14E → s.idx.toNat ≠ 0x14F → busReads .sum s = [s.idx.toNat] ∧
      ∃ (j : Index) (v : Half), exec .sum s = .next { s with sum := v, idx := j } ∧ j.toNat = s.idx.toNat + 1 ∧
        v.toNat = (s.sum.toNat + (readByte s.buf s.idx.toNat).toNat) % 65536)

/-- R94: COMPARE. -/
def Obligations.CompareDecidesOnAllSixteenBits : Prop :=
  ∀ s : State,
    (s.sum ≠ s.cksum → exec .compare s = .next { s with status := 0b10, seq := 0xA }) ∧
    (s.sum = s.cksum → exec .compare s = .next { s with status := 0b00, seq := 0xA }) ∧
    busReads .compare s = [] ∧
    ∀ t, exec .compare s = .next t → t.isDone = true ∧ (t.hdrValid = true ↔ s.sum = s.cksum)

/-- R37 in states no parse reaches (R75, R20; log entry 13): a read outside the buffer raises `Truncated`, and the
micro-operation writes nothing else. -/
def Obligations.ReadsPastTheLengthRaiseTruncated : Prop :=
  ∀ s : State,
    (s.lenR.toNat ≤ 0x103 → exec .extEntry s = .next { s with status := 0b11, seq := 0xA }) ∧
    (s.lenR.toNat ≤ 0x142 → exec .extTitle s = .next { s with status := 0b11, seq := 0xA }) ∧
    (s.lenR.toNat ≤ 0x147 → exec .extCart s = .next { s with status := 0b11, seq := 0xA }) ∧
    (s.lenR.toNat ≤ 0x14A → exec .extDest s = .next { s with status := 0b11, seq := 0xA }) ∧
    (s.lenR.toNat < s.idx.toNat → s.idx.toNat ≠ 0x14E → s.idx.toNat ≠ 0x14F →
      exec .sum s = .next { s with status := 0b11, seq := 0xA })

/-- R87, R88: the lookup over all 256 byte values, with how many map to each variant. -/
def Obligations.CartLookupOverAllBytes : Prop :=
  (∀ b : Byte, (cartLUT b).code =
    if 0x01 ≤ b.toNat ∧ b.toNat ≤ 0x03 then 0b001 else if 0x05 ≤ b.toNat ∧ b.toNat ≤ 0x06 then 0b010
    else if 0x12 ≤ b.toNat ∧ b.toNat ≤ 0x13 then 0b011 else if 0x19 ≤ b.toNat ∧ b.toNat ≤ 0x1E then 0b101 else 0b000) ∧
  [CartType.type1, .type2, .type3, .type5, .none].map
    (fun v => ((List.range 256).filter fun b => cartLUT (BitVec.ofNat 8 b) = v).length) = [3, 2, 2, 6, 243]

/-- R92: the named rows cover disjoint sets of values, so the lookup gives the same result under any order of the rows. -/
def Obligations.CartRowOrderDoesNotMatter : Prop :=
  (cartTable.Pairwise fun r q => ∀ b : Byte, ¬(r.covers b = true ∧ q.covers b = true)) ∧
  ∀ rows : List CartRow, rows.Perm cartTable → ∀ b : Byte, cartLookup rows b = cartLUT b

/-- R8, R39: `BE16(hi, lo) = hi * 256 + lo`, and the extraction that reads the declared checksum uses it. -/
def Obligations.MultiByteFieldsAreBigEndian : Prop :=
  (∀ hi lo : Byte, (be16 hi lo).toNat = hi.toNat * 256 + lo.toNat) ∧
  ∀ s t : State, 0x14F < s.lenR.toNat → exec .extCksum s = .next t →
    t.cksum.toNat = (readByte s.buf 0x14E).toNat * 256 + (readByte s.buf 0x14F).toNat

/-! ## Frames -/

/-- R13, column "written by", R19, R28, R38: which instruction may write which register. No instruction writes the
host's `len` wire, the events to come, or a byte of the buffer. -/
def Obligations.EachRegisterHasItsWriters : Prop :=
  ∀ (i : Instr) (s t : State), exec i s = .next t →
    (i ∉ [Instr.parse, .lenchk, .extEntry, .extTitle, .extCart, .extDest, .extCksum, .extSizes, .sum, .compare] →
      t.seq = s.seq) ∧
    (i ∉ [Instr.parse, .compare] → t.status = s.status ∨ (t.status ≠ 0b00 ∧ t.seq = 0xA)) ∧
    (i ≠ .parse → t.lenR = s.lenR) ∧
    (i ∉ [Instr.parse, .sum] → t.idx = s.idx ∧ t.sum = s.sum) ∧
    (i ∉ [Instr.parse, .extEntry] → t.entry0 = s.entry0 ∧ t.entry1 = s.entry1) ∧
    (i ∉ [Instr.parse, .extTitle] → t.title = s.title) ∧
    (i ∉ [Instr.parse, .extCart] → t.cart = s.cart) ∧
    (i ∉ [Instr.parse, .extDest] → t.dest = s.dest) ∧
    (i ∉ [Instr.parse, .extSizes] → t.romSz = s.romSz ∧ t.ramSz = s.ramSz) ∧
    (i ∉ [Instr.parse, .extCksum] → t.cksum = s.cksum) ∧
    t.len = s.len ∧ t.pending = s.pending ∧ ∀ a, readByte t.buf a = readByte s.buf a

/-- R77: each extraction writes only its own field registers and `SEQ`, and not `SUM`, `IDX` or `LEN_R`; past the length
check only EXT_CKSUM raises, only `Truncated`, and only at `LEN_R = 0x14F`. -/
def Obligations.ExtractionsWriteOnlyTheirOwnFields : Prop :=
  ∀ (i : Instr) (s t : State), i ∈ [Instr.extEntry, .extTitle, .extCart, .extDest, .extCksum, .extSizes] →
    0x14F ≤ s.lenR.toNat → exec i s = .next t →
    ({ t with seq := s.seq, status := s.status, entry0 := s.entry0, entry1 := s.entry1, title := s.title, cart := s.cart,
              dest := s.dest, cksum := s.cksum, romSz := s.romSz, ramSz := s.ramSz } : State) = s ∧
    (i ≠ .extEntry → t.entry0 = s.entry0 ∧ t.entry1 = s.entry1) ∧
    (i ≠ .extTitle → t.title = s.title) ∧ (i ≠ .extCart → t.cart = s.cart) ∧ (i ≠ .extDest → t.dest = s.dest) ∧
    (i ≠ .extCksum → t.cksum = s.cksum) ∧ (i ≠ .extSizes → t.romSz = s.romSz ∧ t.ramSz = s.ramSz) ∧
    (if i = .extCksum ∧ s.lenR.toNat = 0x14F then t = { s with status := 0b11, seq := 0xA }
     else t.status = s.status ∧ t.seq ≠ 0xA)

/-- R11, R107: an instruction that ends a parse with an error outcome writes `STATUS` and `SEQ` and nothing else, and no
later micro-operation runs: the sequencer then stays in DONE. -/
def Obligations.AnErrorWritesOnlyStatusAndSeq : Prop :=
  ∀ (i : Instr) (s t : State), exec i s = .next t → s.seq ≠ 0xA → t.seq = 0xA → t.status ≠ 0b00 →
    t = { s with status := t.status, seq := 0xA } ∧
    ∀ n, Sys2Proof.core.run n { t with pending := [] } = .next { t with pending := [] }

/-- R28, R38, R61, R64: what a host step leaves. The buffer holds the bytes the host wrote and every other byte as before,
in canonical form; `len` is what the host drives; and unless the step resets or has a PARSE accepted, every register
keeps its value. -/
def Obligations.HostStepFrame : Prop :=
  ∀ (h : HostStep) (s t : State), Memory.wf s.buf → hostStep h s = .next t →
    Memory.wf t.buf ∧ (∀ a, (∀ c ∈ h.writes, c.1 ≠ a) → readByte t.buf a = readByte s.buf a) ∧
    (∀ c ∈ h.writes, (∀ d ∈ h.writes, d.1 = c.1 → d = c) → readByte t.buf c.1 = c.2) ∧
    t.len = h.drive.getD s.len ∧ t.pending = s.pending ∧
    (h.rst = false → h.cmd = 0b00 ∨ s.busy = true → t = { s with len := t.len, buf := t.buf })

/-- R61, LOADBUF: while the block is not busy, the bytes land at the index given and after it, and nothing else changes. -/
def Obligations.LoadBufPlacesItsBytes : Prop :=
  ∀ (s : State) (i : Nat) (bs : List Byte) (p : List Event), Memory.wf s.buf → s.busy = false → i + bs.length ≤ 2 ^ 32 →
    s.pending = .host (.loadBuf i bs) :: p →
    ∃ m : Memory, step s = .next { s with buf := m, pending := p } ∧ Memory.wf m ∧
      (∀ (k : Nat) (hk : k < bs.length), readByte m (i + k) = bs[k]) ∧
      ∀ a, a < i ∨ i + bs.length ≤ a → readByte m a = readByte s.buf a

/-- The buffer's canonical form (log entry 1): buffers in it that read alike at every index are equal. -/
def Obligations.EqualBuffersAreEqualData : Prop :=
  ∀ m₁ m₂ : Memory, Memory.wf m₁ → Memory.wf m₂ → (∀ a, readByte m₁ a = readByte m₂ a) → m₁ = m₂

/-! ## Reset and what the host sees -/

/-- R13, R118: the machine right after reset. -/
def Obligations.ResetStateHoldsTheTablesValues : Prop :=
  State.reset.seq = 0x0 ∧ State.reset.status = 0b00 ∧ State.reset.lenR = 0 ∧ State.reset.idx = 0 ∧ State.reset.sum = 0 ∧
    State.reset.entry0 = 0 ∧ State.reset.entry1 = 0 ∧ State.reset.title = Vector.replicate 16 0x00 ∧
    State.reset.cart = 0b000 ∧ State.reset.dest = 0 ∧ State.reset.romSz = 0 ∧ State.reset.ramSz = 0 ∧
    State.reset.cksum = 0 ∧ State.reset.busy = false ∧ State.reset.isDone = false ∧ State.reset.hdrValid = false

/-- R117, R119: a host step with `rst = 1` that the host may make puts every register at its reset value, in any state and
whatever `cmd` holds; the buffer keeps its bytes but for the host's own writes. A parse abandoned so has no outcome, and the
next step reads no byte for it. That `len` and the bytes driven in the step land is log entry 7; `HostMayMove` leaves out a
step that reads a `Truncated` outcome, which faults (log entries 6 and 15). -/
def Obligations.ResetStepResetsEveryRegister : Prop :=
  ∀ (s : State) (h : HostStep) (p : List Event), s.pending = .host h :: p → h.rst = true → HostMayMove h s →
    ∃ t : State, step s = .next t ∧ t =
      { seq := 0x0, status := 0b00, lenR := 0, idx := 0, sum := 0x0000, entry0 := 0x0000, entry1 := 0x0000,
        title := Vector.replicate 16 0x00, cart := 0b000, dest := 0, romSz := 0x0000, ramSz := 0x0000, cksum := 0x0000,
        len := h.drive.getD s.len, buf := writeCells s.buf h.writes, pending := p } ∧
      observe t = .none ∧ stepReads t = []

/-- R15, R16, R18: the derived indications. -/
def Obligations.DerivedIndications : Prop :=
  ∀ s : State, (s.busy = true ↔ s.seq ≠ 0x0 ∧ s.seq ≠ 0xA) ∧ (s.isDone = true ↔ s.seq = 0xA) ∧
    (s.hdrValid = true ↔ s.seq = 0xA ∧ s.status = 0b00) ∧
    (ports s).busy = s.busy ∧ (ports s).done = s.isDone ∧ (ports s).hdrValid = s.hdrValid

/-- R34: the observation; a record is observed exactly when `hdr_valid = 1`, and it is the field registers'. -/
def Obligations.ObservationFollowsSeqAndStatus : Prop :=
  ∀ s : State,
    (s.seq ≠ 0xA → observe s = .none) ∧
    (s.seq = 0xA → s.status = 0b00 → observe s = .record
      { entryPoint := (s.entry0, s.entry1), title := s.title, cartridgeType := s.cart, romSize := s.romSz,
        ramSize := s.ramSz, destinationCode := s.dest, checksum := s.cksum }) ∧
    (s.seq = 0xA → s.status = 0b01 → observe s = .error .romTooShort) ∧
    (s.seq = 0xA → s.status = 0b10 → observe s = .error .badChecksum) ∧
    (s.seq = 0xA → s.status = 0b11 → observe s = .fault) ∧
    (s.hdrValid = true ↔ ∃ r, observe s = .record r)

/-- R33: the `title` port packs `TITLE[k]` into bits `[8k+7:8k]`, and the port carries it. -/
def Obligations.TitlePortPacksByteKAtBit8K : Prop :=
  ∀ (s : State) (k : Nat) (hk : k < 16), ((ports s).title >>> (8 * k)).setWidth 8 = s.title[k]

/-- R64, R34, R104: a READ has no side effect, and the observation of `Truncated` is a fault. -/
def Obligations.ReadHasNoSideEffect : Prop :=
  ∀ (s : State) (p : List Event), s.pending = .host .readPorts :: p →
    (observe s ≠ .fault → step s = .next { s with pending := p }) ∧
    (observe s = .fault → step s = .fault .truncatedObserved)

/-! ## Rules of the whole machine -/

/-- The control invariant holds at reset, and so does that of the field registers. -/
def Obligations.ResetMeetsTheInvariants : Prop := Inv State.reset ∧ FieldsInv State.reset

/-- R14, R17, R20, R23, R26, R56, R75, R91, R93, R101: every step keeps the control invariant, whichever agent moves. -/
def Obligations.EveryStepKeepsTheControlInvariant : Prop :=
  ∀ s t : State, Inv s → step s = .next t → Inv t

/-- R124: every step keeps the field registers as the parse so far has written them. -/
def Obligations.EveryStepKeepsTheFieldRegisters : Prop :=
  ∀ s t : State, Inv s → FieldsInv s → step s = .next t → FieldsInv t

/-- R53, column "next SEQ": the sequencer follows the fixed order, repeats only SUM, and leaves it early only for DONE
with an error. -/
def Obligations.SequencerFollowsTheFixedOrder : Prop :=
  ∀ s : State, Inv s → s.busy = true → s.pending = [] → ∃ t, step s = .next t ∧
    ((t.seq = s.seq + 1 ∧ t.status = 0b00) ∨ (s.seq = 0x8 ∧ t.seq = 0x8) ∨ (t.seq = 0xA ∧ t.status ≠ 0b00))

/-- R69, R70: only an accepted PARSE or a reset leaves IDLE or DONE, and only a reset enters IDLE. -/
def Obligations.OnlyParseOrResetLeavesAHoldState : Prop :=
  ∀ s t : State, step s = .next t →
    (s.busy = false → t.seq ≠ s.seq →
      ∃ h, nextEvent s = .host h ∧ (h.rst = true ∨ (h.rst = false ∧ h.cmd = 0b01 ∧ t.seq = 0x1 ∧ t.lenR = t.len))) ∧
    (t.seq = 0x0 → s.seq = 0x0 ∨ ∃ h, nextEvent s = .host h ∧ h.rst = true)

/-- R35, R70: while `SEQ = DONE` no register changes, until an accepted PARSE or a reset. -/
def Obligations.TheRecordIsStableInDone : Prop :=
  ∀ s t : State, s.seq = 0xA → step s = .next t →
    (∀ h, nextEvent s = .host h → h.rst = false ∧ h.cmd ≠ 0b01) →
    t = { s with len := t.len, buf := t.buf, pending := s.pending.tail } ∧ observe t = observe s

/-- R19, R67, R72, R123: while a parse runs, a host step without a reset touches no register and no byte of the buffer. -/
def Obligations.HostStepsDoNotTouchARunningParse : Prop :=
  ∀ (s t : State) (h : HostStep), s.busy = true → nextEvent s = .host h → h.rst = false → step s = .next t →
    SameBlock s t ∧ t.pending = s.pending.tail ∧ stepReads s = []

/-- R37, R75, R122: in every state of the invariant, each byte a micro-operation reads lies inside the buffer, so no
out-of-range read is driven and no read raises. -/
def Obligations.EveryReadLiesInsideTheBuffer : Prop :=
  ∀ s : State, Inv s → (∀ a ∈ operandIndices (decode (.seq4 s.seq)) s, a < s.lenR.toNat) ∧
    busReads (decode (.seq4 s.seq)) s = operandIndices (decode (.seq4 s.seq)) s

/-- R37, R100, R122: an instruction depends on the buffer only through the bytes it drives on `rd_addr`. -/
def Obligations.OnlyTheDrivenBytesMatter : Prop :=
  ∀ (i : Instr) (s : State) (m : Memory), (∀ a ∈ busReads i s, readByte m a = readByte s.buf a) →
    (∀ t, exec i s = .next t → exec i { s with buf := m } = .next { t with buf := m }) ∧
    (∀ r, exec i s = .refused r → exec i { s with buf := m } = .refused r)

/-- R101, R106: in every state of the invariant, the step that ends a parse ends it with the one outcome whose cause
holds, raised by the micro-operation that checks it. -/
def Obligations.EachOutcomeHasItsCause : Prop :=
  ∀ s t : State, Inv s → s.busy = true → s.pending = [] → step s = .next t → t.seq = 0xA →
    (t.status = 0b00 ↔ s.seq = 0x9 ∧ 0x150 ≤ s.lenR.toNat ∧ s.sum = s.cksum) ∧
    (t.status = 0b01 ↔ s.seq = 0x1 ∧ s.lenR.toNat < 0x14F) ∧
    (t.status = 0b10 ↔ s.seq = 0x9 ∧ 0x150 ≤ s.lenR.toNat ∧ s.sum ≠ s.cksum) ∧
    (t.status = 0b11 ↔ s.seq = 0x6 ∧ s.lenR.toNat = 0x14F)

/-! ## The whole parse -/

/-- R93, R95: the SUM loop takes `L + 1` steps and ends with the closed-form checksum. -/
def Obligations.SumLoopComputesTheChecksum : Prop :=
  ∀ s : State, s.seq = 0x8 → s.idx = 0 → s.sum = 0 → s.pending = [] →
    Sys2Proof.core.run (s.lenR.toNat + 1) s = .next
      { s with seq := 0x9, idx := s.lenR, sum := checksum (readByte s.buf) s.lenR.toNat }

/-- R74: a buffer shorter than 0x14F is `RomTooShort` after one sequencer step, whatever it holds, and no byte is read. -/
def Obligations.ShortBuffersAreRomTooShort : Prop :=
  ∀ s : State, FreshParse s → s.lenR.toNat < 0x14F → s.pending = [] →
    stepReads s = [] ∧ step s = .next { s with status := 0b01, seq := 0xA } ∧
    ∀ t, step s = .next t → observe t = .error .romTooShort

/-- R84, R99: at length 0x14F the parse ends in `Truncated` at the sixth step, the first four fields written. -/
def Obligations.LengthOneShortOfTheHeaderIsTruncated : Prop :=
  ∀ s : State, FreshParse s → s.lenR.toNat = 0x14F → s.pending = [] →
    ∃ t, Sys2Proof.core.run 6 s = .next t ∧ t = { s with
      status := 0b11, seq := 0xA, entry0 := t.entry0, entry1 := t.entry1, title := t.title, cart := t.cart, dest := t.dest } ∧
      (t.entry0, t.entry1) = (recordOf (readByte s.buf)).entryPoint ∧ t.title = (recordOf (readByte s.buf)).title ∧
      t.cart = (recordOf (readByte s.buf)).cartridgeType ∧ t.dest = (recordOf (readByte s.buf)).destinationCode ∧
      observe t = .fault ∧ t.hdrValid = false

/-- R66, R98, R99, R130: a PARSE from a hold state, with the sequencer running undisturbed, ends in DONE after exactly
`stepCount` sequencer steps, and what is observed there is the whole-parse function of `len` and the buffer. -/
def Obligations.AParseComputesTheWholeParseFunction : Prop :=
  ∀ s : State, s.busy = false → s.pending = [.host .parse] →
    (∃ t, Sys2Proof.core.run (1 + stepCount s.len.toNat) s = .next t ∧ t.isDone = true ∧
      observe t = parseFunction s.len.toNat (readByte s.buf) ∧ t.buf = s.buf) ∧
    ∀ n, 1 ≤ n → n ≤ stepCount s.len.toNat → ∃ u, Sys2Proof.core.run n s = .next u ∧ u.busy = true

/-- R72, R98: every interleaving of host and sequencer steps without a reset, a buffer write or a reserved command gives
the same outcome: the parse is over at the sequencer's last step, and what is observed is the whole-parse function. -/
def Obligations.EveryInterleavingGivesTheSameOutcome : Prop :=
  ∀ (s : State) (p rest : List Event), FreshParse s → s.pending = p ++ .sequencer :: rest →
    (∀ e ∈ p, quietEvent e = true) → p.count .sequencer + 1 = stepCount s.lenR.toNat →
    ∃ t, Sys2Proof.core.run (p.length + 1) s = .next t ∧ t.isDone = true ∧
      observe t = parseFunction s.lenR.toNat (readByte s.buf) ∧ t.buf = s.buf ∧ t.pending = rest

/-- R62, R99, R104: `WAITDONE` right after a PARSE ends after the step count, and the run is safe for every length but
0x14F (the turns of the two agents: log entry 16). -/
def Obligations.WaitDoneIsSafeButAtLength14F : Prop :=
  ∀ s : State, FreshParse s → s.pending = [.waitDone] →
    (∃ t, Sys2Proof.core.run (2 * stepCount s.lenR.toNat + 1) s = .next t ∧ t.isDone = true ∧ t.pending = []) ∧
    (SafeRun (2 * stepCount s.lenR.toNat + 1) s ↔ s.lenR.toNat ≠ 0x14F)

/-- R97: the declared bytes do not enter the sum, so exactly one declared value gives `OK`, the checksum itself, high byte
first. -/
def Obligations.ExactlyOneDeclaredValueIsOk : Prop :=
  ∀ (buf : Nat → Byte) (L : Nat) (hi lo : Byte), 0x150 ≤ L →
    let buf' := Function.update (Function.update buf 0x14E hi) 0x14F lo
    checksum buf' L = checksum buf L ∧
    ((∃ r, parseFunction L buf' = .record r) ↔ hi.toNat * 256 + lo.toNat = (checksum buf L).toNat)

/-- R100: changing one summed byte always changes the checksum, so an `OK` buffer becomes `BadChecksum`. -/
def Obligations.ChangingASummedByteChangesTheOutcome : Prop :=
  ∀ (buf : Nat → Byte) (L i : Nat) (b : Byte), 0x150 ≤ L → i < L → i ≠ 0x14E → i ≠ 0x14F → b ≠ buf i →
    checksum (Function.update buf i b) L ≠ checksum buf L ∧
    ((∃ r, parseFunction L buf = .record r) → parseFunction L (Function.update buf i b) = .error .badChecksum)

/-- R80: byte 0x143 reaches no field of the record, and two buffers that differ only there have the same title, and
different checksums unless the two values are equal. -/
def Obligations.Byte143IsOnlySummed : Prop :=
  ∀ (buf : Nat → Byte) (L : Nat) (b : Byte), 0x150 ≤ L →
    recordOf (Function.update buf 0x143 b) = recordOf buf ∧
    (checksum (Function.update buf 0x143 b) L = checksum buf L ↔ b = buf 0x143)

/-- R98, R122: no byte at an index `≥ L` reaches the outcome or the record. -/
def Obligations.BytesBeyondTheLengthDoNotMatter : Prop :=
  ∀ (b₁ b₂ : Nat → Byte) (L : Nat), (∀ i < L, b₁ i = b₂ i) → parseFunction L b₁ = parseFunction L b₂

/-! ## Waiting, and reading a `Truncated` outcome -/

/-- R62: `WAITDONE` is `NOP` repeated until `done = 1`. In DONE it is over and nothing changes; otherwise it runs a `NOP`,
gives the sequencer a turn and waits on; in IDLE it waits for ever and changes nothing (log entry 16). -/
def Obligations.WaitDoneRepeatsNopUntilDone : Prop :=
  ∀ (s : State) (p : List Event), s.pending = .waitDone :: p →
    (s.isDone = true → step s = .next { s with pending := p }) ∧
    (s.isDone = false → step s = exec .nop { s with pending := .sequencer :: .waitDone :: p } ∧
      Sys2Proof.core.run 2 s = exec (decode (.seq4 s.seq)) { s with pending := .waitDone :: p }) ∧
    (s.seq = 0x0 → ∀ n, Sys2Proof.core.run (2 * n) s = .next s)

/-- R62, R99: from any point of a parse `WAITDONE` ends, after exactly the sequencer steps that are left, one for each
`NOP` (log entry 16); right after a PARSE these are the step count. -/
def Obligations.WaitDoneEndsAfterTheStepsLeft : Prop :=
  (∀ s : State, FreshParse s → stepsLeft s = stepCount s.lenR.toNat) ∧
  ∀ (s : State) (p : List Event), Inv s → s.busy = true → s.pending = .waitDone :: p →
    (∃ t, Sys2Proof.core.run (2 * stepsLeft s + 1) s = .next t ∧ t.isDone = true ∧ t.pending = p ∧ t.buf = s.buf) ∧
    ∀ n, n < 2 * stepsLeft s → ∃ u, Sys2Proof.core.run n s = .next u ∧ u.busy = true

/-- R34, R104: every host step that reads the outputs of a `Truncated` parse, its buffer writes allowed and no reserved
command driven, faults (log entry 6), also with a reset or an accepted PARSE (log entry 15). -/
def Obligations.ReadingATruncatedOutcomeFaults : Prop :=
  ∀ (s : State) (h : HostStep) (p : List Event), s.pending = .host h :: p → h.read = true →
    s.seq = 0xA → s.status = 0b11 → (h.writes = [] ∨ mayWrite h s = true) → h.wellFormed = true →
    (h.rst = true ∨ h.cmd = 0b00 ∨ h.cmd = 0b01) → step s = .fault .truncatedObserved
end

