-- ==== Sys2Proof/Laws/State.lean ====
section
/-! SUPPORT. What each shared state update leaves in each field, one lemma a field. -/

namespace Sys2Proof.Machine

variable (s : State)

/-! ## `State.raise` (R11) -/

@[simp] theorem State.raise_seq (e : ParseOutcome) : (s.raise e).seq = Seq.done := rfl
@[simp] theorem State.raise_status (e : ParseOutcome) : (s.raise e).status = e.code := rfl
@[simp] theorem State.raise_lenR (e : ParseOutcome) : (s.raise e).lenR = s.lenR := rfl
@[simp] theorem State.raise_idx (e : ParseOutcome) : (s.raise e).idx = s.idx := rfl
@[simp] theorem State.raise_sum (e : ParseOutcome) : (s.raise e).sum = s.sum := rfl
@[simp] theorem State.raise_entry0 (e : ParseOutcome) : (s.raise e).entry0 = s.entry0 := rfl
@[simp] theorem State.raise_entry1 (e : ParseOutcome) : (s.raise e).entry1 = s.entry1 := rfl
@[simp] theorem State.raise_title (e : ParseOutcome) : (s.raise e).title = s.title := rfl
@[simp] theorem State.raise_cart (e : ParseOutcome) : (s.raise e).cart = s.cart := rfl
@[simp] theorem State.raise_dest (e : ParseOutcome) : (s.raise e).dest = s.dest := rfl
@[simp] theorem State.raise_romSz (e : ParseOutcome) : (s.raise e).romSz = s.romSz := rfl
@[simp] theorem State.raise_ramSz (e : ParseOutcome) : (s.raise e).ramSz = s.ramSz := rfl
@[simp] theorem State.raise_cksum (e : ParseOutcome) : (s.raise e).cksum = s.cksum := rfl
@[simp] theorem State.raise_len (e : ParseOutcome) : (s.raise e).len = s.len := rfl
@[simp] theorem State.raise_buf (e : ParseOutcome) : (s.raise e).buf = s.buf := rfl
@[simp] theorem State.raise_pending (e : ParseOutcome) : (s.raise e).pending = s.pending := rfl

/-! ## `State.beginParse` (R66) -/

@[simp] theorem State.beginParse_seq : s.beginParse.seq = Seq.lenchk := rfl
@[simp] theorem State.beginParse_status : s.beginParse.status = 0 := rfl
@[simp] theorem State.beginParse_lenR : s.beginParse.lenR = s.len := rfl
@[simp] theorem State.beginParse_idx : s.beginParse.idx = 0 := rfl
@[simp] theorem State.beginParse_sum : s.beginParse.sum = 0 := rfl
@[simp] theorem State.beginParse_entry0 : s.beginParse.entry0 = 0 := rfl
@[simp] theorem State.beginParse_entry1 : s.beginParse.entry1 = 0 := rfl
@[simp] theorem State.beginParse_title : s.beginParse.title = Vector.replicate 16 0 := rfl
@[simp] theorem State.beginParse_cart : s.beginParse.cart = 0 := rfl
@[simp] theorem State.beginParse_dest : s.beginParse.dest = 0 := rfl
@[simp] theorem State.beginParse_romSz : s.beginParse.romSz = 0 := rfl
@[simp] theorem State.beginParse_ramSz : s.beginParse.ramSz = 0 := rfl
@[simp] theorem State.beginParse_cksum : s.beginParse.cksum = 0 := rfl
@[simp] theorem State.beginParse_len : s.beginParse.len = s.len := rfl
@[simp] theorem State.beginParse_buf : s.beginParse.buf = s.buf := rfl
@[simp] theorem State.beginParse_pending : s.beginParse.pending = s.pending := rfl

/-! ## `State.resetRegisters` (R117) -/

@[simp] theorem State.resetRegisters_seq : s.resetRegisters.seq = Seq.idle := rfl
@[simp] theorem State.resetRegisters_status : s.resetRegisters.status = 0 := rfl
@[simp] theorem State.resetRegisters_lenR : s.resetRegisters.lenR = 0 := rfl
@[simp] theorem State.resetRegisters_idx : s.resetRegisters.idx = 0 := rfl
@[simp] theorem State.resetRegisters_sum : s.resetRegisters.sum = 0 := rfl
@[simp] theorem State.resetRegisters_entry0 : s.resetRegisters.entry0 = 0 := rfl
@[simp] theorem State.resetRegisters_entry1 : s.resetRegisters.entry1 = 0 := rfl
@[simp] theorem State.resetRegisters_title : s.resetRegisters.title = Vector.replicate 16 0 := rfl
@[simp] theorem State.resetRegisters_cart : s.resetRegisters.cart = 0 := rfl
@[simp] theorem State.resetRegisters_dest : s.resetRegisters.dest = 0 := rfl
@[simp] theorem State.resetRegisters_romSz : s.resetRegisters.romSz = 0 := rfl
@[simp] theorem State.resetRegisters_ramSz : s.resetRegisters.ramSz = 0 := rfl
@[simp] theorem State.resetRegisters_cksum : s.resetRegisters.cksum = 0 := rfl
@[simp] theorem State.resetRegisters_len : s.resetRegisters.len = s.len := rfl
@[simp] theorem State.resetRegisters_buf : s.resetRegisters.buf = s.buf := rfl
@[simp] theorem State.resetRegisters_pending : s.resetRegisters.pending = s.pending := rfl

/-! ## `driveInputs` (R63, R64) -/

@[simp] theorem driveInputs_seq (h : HostStep) : (driveInputs h s).seq = s.seq := rfl
@[simp] theorem driveInputs_status (h : HostStep) : (driveInputs h s).status = s.status := rfl
@[simp] theorem driveInputs_lenR (h : HostStep) : (driveInputs h s).lenR = s.lenR := rfl
@[simp] theorem driveInputs_idx (h : HostStep) : (driveInputs h s).idx = s.idx := rfl
@[simp] theorem driveInputs_sum (h : HostStep) : (driveInputs h s).sum = s.sum := rfl
@[simp] theorem driveInputs_entry0 (h : HostStep) : (driveInputs h s).entry0 = s.entry0 := rfl
@[simp] theorem driveInputs_entry1 (h : HostStep) : (driveInputs h s).entry1 = s.entry1 := rfl
@[simp] theorem driveInputs_title (h : HostStep) : (driveInputs h s).title = s.title := rfl
@[simp] theorem driveInputs_cart (h : HostStep) : (driveInputs h s).cart = s.cart := rfl
@[simp] theorem driveInputs_dest (h : HostStep) : (driveInputs h s).dest = s.dest := rfl
@[simp] theorem driveInputs_romSz (h : HostStep) : (driveInputs h s).romSz = s.romSz := rfl
@[simp] theorem driveInputs_ramSz (h : HostStep) : (driveInputs h s).ramSz = s.ramSz := rfl
@[simp] theorem driveInputs_cksum (h : HostStep) : (driveInputs h s).cksum = s.cksum := rfl
@[simp] theorem driveInputs_len (h : HostStep) : (driveInputs h s).len = h.drive.getD s.len := rfl
@[simp] theorem driveInputs_buf (h : HostStep) : (driveInputs h s).buf = writeCells s.buf h.writes := rfl
@[simp] theorem driveInputs_pending (h : HostStep) : (driveInputs h s).pending = s.pending := rfl

/-! ## Taking an event off the list (R63) -/

/-- The events to come do not reach the derived indications. -/
@[simp] theorem State.busy_withPending (p : List Event) : ({ s with pending := p } : State).busy = s.busy := rfl
@[simp] theorem State.isDone_withPending (p : List Event) : ({ s with pending := p } : State).isDone = s.isDone := rfl
@[simp] theorem observe_withPending (p : List Event) : observe { s with pending := p } = observe s := rfl

/-! ## The derived indications (R15, R16) -/

theorem State.busy_iff : s.busy = true ↔ s.seq ≠ Seq.idle ∧ s.seq ≠ Seq.done := by
  simp [State.busy]

theorem State.isDone_iff : s.isDone = true ↔ s.seq = Seq.done := by
  simp [State.isDone]

theorem ParseOutcome.ofCode_code (e : ParseOutcome) : ParseOutcome.ofCode e.code = e := by
  cases e <;> rfl

theorem ParseOutcome.code_ofCode (c : BitVec 2) : (ParseOutcome.ofCode c).code = c := by
  revert c; decide

/-- What a raise leaves to observe: no outcome but its own, and no record (R11, R34). -/
theorem State.outcome_raise (e : ParseOutcome) : (s.raise e).outcome = e :=
  ParseOutcome.ofCode_code e

end Sys2Proof.Machine
end

