-- ==== Sys2Proof/Laws/Memory.lean ====
section
/-! SUPPORT. The ROM buffer: read after write, and every operation keeps the canonical form. -/

namespace Sys2Proof.Machine

theorem readByte_eq_unlisted {m : Memory} {i : Nat} (h : ∀ c ∈ m, c.1 ≠ i) : readByte m i = Memory.unlisted := by
  induction m with
  | nil => rfl
  | cons c m ih =>
    obtain ⟨a, x⟩ := c
    simp only [List.mem_cons, forall_eq_or_imp] at h
    simp [readByte, h.1, ih h.2]

theorem readByte_consCell {m : Memory} {i : Nat} (b : Byte) (j : Nat) (h : ∀ c ∈ m, c.1 ≠ i) :
    readByte (consCell i b m) j = if i = j then b else readByte m j := by
  unfold consCell
  split
  · split
    · subst_vars; exact readByte_eq_unlisted h
    · rfl
  · rfl

theorem mem_consCell {m : Memory} {i : Nat} {b : Byte} {c : Host.Cell} (h : c ∈ consCell i b m) :
    (c = (i, b) ∧ b ≠ Memory.unlisted) ∨ c ∈ m := by
  unfold consCell at h
  split at h
  · exact .inr h
  · rcases List.mem_cons.1 h with h | h
    · exact .inl ⟨h, ‹_›⟩
    · exact .inr h

theorem mem_writeByte {m : Memory} {i : Nat} {b : Byte} {c : Host.Cell} (h : c ∈ writeByte m i b) :
    (c = (i, b) ∧ b ≠ Memory.unlisted) ∨ c ∈ m := by
  induction m with
  | nil => exact mem_consCell h
  | cons d m ih =>
    obtain ⟨a, x⟩ := d
    simp only [writeByte] at h
    split at h
    · exact mem_consCell h
    · split at h
      · exact (mem_consCell h).imp id (List.mem_cons_of_mem _)
      · rcases List.mem_cons.1 h with h | h
        · exact .inr (h ▸ List.mem_cons_self)
        · exact (ih h).imp id (List.mem_cons_of_mem _)

theorem wf_tail {c : Host.Cell} {m : Memory} (h : Memory.wf (c :: m)) : Memory.wf m :=
  ⟨(List.pairwise_cons.1 h.1).2, fun d hd => h.2 d (List.mem_cons_of_mem _ hd)⟩

theorem wf_consCell {m : Memory} {i : Nat} (b : Byte) (hi : i < Config.indexSpace) (hm : Memory.wf m)
    (h : ∀ c ∈ m, i < c.1) : Memory.wf (consCell i b m) := by
  unfold consCell
  split
  · exact hm
  · exact ⟨List.pairwise_cons.2 ⟨h, hm.1⟩, by
      intro c hc
      rcases List.mem_cons.1 hc with rfl | hc
      · exact ⟨hi, ‹_›⟩
      · exact hm.2 c hc⟩

/-- A write keeps the canonical form. -/
theorem wf_writeByte {m : Memory} {i : Nat} (b : Byte) (hi : i < Config.indexSpace) (hm : Memory.wf m) :
    Memory.wf (writeByte m i b) := by
  induction m with
  | nil => exact wf_consCell b hi hm (by simp)
  | cons d m ih =>
    obtain ⟨a, x⟩ := d
    have hlt := (List.pairwise_cons.1 hm.1).1
    have ht := wf_tail hm
    simp only [writeByte]
    split
    · rename_i h
      refine wf_consCell b hi hm ?_
      intro c hc
      rcases List.mem_cons.1 hc with rfl | hc
      · exact h
      · exact lt_trans h (hlt c hc)
    · split
      · rename_i h
        exact wf_consCell b hi ht (fun c hc => h ▸ hlt c hc)
      · refine ⟨List.pairwise_cons.2 ⟨?_, (ih ht).1⟩, ?_⟩
        · intro c hc
          rcases mem_writeByte hc with ⟨rfl, -⟩ | hc
          · show a < i
            omega
          · exact hlt c hc
        · intro c hc
          rcases List.mem_cons.1 hc with rfl | hc
          · exact hm.2 _ List.mem_cons_self
          · exact (ih ht).2 c hc

/-- A read after a write: the byte written at its index, and every other byte as before. -/
theorem readByte_writeByte {m : Memory} (i : Nat) (b : Byte) (j : Nat) (hm : Memory.wf m) :
    readByte (writeByte m i b) j = if i = j then b else readByte m j := by
  induction m with
  | nil => exact readByte_consCell b j (by simp)
  | cons d m ih =>
    obtain ⟨a, x⟩ := d
    have hlt := (List.pairwise_cons.1 hm.1).1
    simp only [writeByte]
    split
    · rename_i h
      refine readByte_consCell b j ?_
      intro c hc
      rcases List.mem_cons.1 hc with rfl | hc
      · exact (Nat.ne_of_lt h).symm
      · exact (Nat.ne_of_lt (lt_trans h (hlt c hc))).symm
    · split
      · rename_i h
        subst h
        rw [readByte_consCell b j (fun c hc => (Nat.ne_of_lt (hlt c hc)).symm)]
        by_cases hij : i = j <;> simp [readByte, hij]
      · rename_i h
        have := ih (wf_tail hm)
        by_cases haj : a = j
        · subst haj
          simp [readByte, h]
        · simp [readByte, haj, this]

/-- A list of writes keeps the canonical form. -/
theorem wf_writeCells {cs : List (Nat × Byte)} {m : Memory} (hcs : ∀ c ∈ cs, c.1 < Config.indexSpace)
    (hm : Memory.wf m) : Memory.wf (writeCells m cs) := by
  induction cs generalizing m with
  | nil => exact hm
  | cons c cs ih =>
    exact ih (fun d hd => hcs d (List.mem_cons_of_mem _ hd)) (wf_writeByte c.2 (hcs c List.mem_cons_self) hm)

/-- An index no write of a list names reads as before. -/
theorem readByte_writeCells_of_ne {cs : List (Nat × Byte)} {m : Memory} {j : Nat} (hcs : ∀ c ∈ cs, c.1 < Config.indexSpace)
    (hj : ∀ c ∈ cs, c.1 ≠ j) (hm : Memory.wf m) : readByte (writeCells m cs) j = readByte m j := by
  induction cs generalizing m with
  | nil => rfl
  | cons c cs ih =>
    have hc := hcs c List.mem_cons_self
    rw [writeCells, ih (fun d hd => hcs d (List.mem_cons_of_mem _ hd)) (fun d hd => hj d (List.mem_cons_of_mem _ hd))
      (wf_writeByte _ hc hm), readByte_writeByte _ _ _ hm, if_neg (hj c List.mem_cons_self)]

/-- The buffer at reset has the canonical form. -/
theorem reset_buf_wf : Memory.wf State.reset.buf := by decide

/-- A well-formed host step's writes lie in the index space. -/
theorem HostStep.writes_lt {h : HostStep} (hw : h.wellFormed = true) : ∀ c ∈ h.writes, c.1 < Config.indexSpace := by
  simpa [HostStep.wellFormed] using hw

end Sys2Proof.Machine
end

