-- ==== Sys2Proof/Laws/Ops.lean ====
section
/-! SUPPORT. One lemma per shared operation: `MemRead`, `BE16`, the skip range, the closed-form sum. -/

namespace Sys2Proof.Machine

variable {s : State}

/-- `MemRead` inside the buffer (R37). -/
theorem memRead_of_lt {i : Nat} (h : i < s.lenR.toNat) : memRead s i = some (readByte s.buf i) := if_pos h

/-- `MemRead` outside the buffer raises (R37). -/
theorem memRead_of_ge {i : Nat} (h : s.lenR.toNat ≤ i) : memRead s i = none := if_neg (Nat.not_lt.2 h)

/-- `MemRead` of `n` bytes inside the buffer. -/
theorem memReads_of_le {i n : Nat} (h : i + n ≤ s.lenR.toNat) :
    memReads s i n = some ((List.range' i n).map (readByte s.buf)) := by
  induction n generalizing i with
  | zero => rfl
  | succ n ih =>
    simp [memReads, memRead_of_lt (show i < s.lenR.toNat by omega), ih (show i + 1 + n ≤ s.lenR.toNat by omega),
      List.range'_succ]

/-- `MemRead` of `n` bytes that do not all lie inside the buffer raises. -/
theorem memReads_of_gt {i n : Nat} (hn : 0 < n) (h : s.lenR.toNat < i + n) : memReads s i n = none := by
  induction n generalizing i with
  | zero => omega
  | succ n ih =>
    by_cases hi : i < s.lenR.toNat
    · simp [memReads, memRead_of_lt hi, ih (show 0 < n by omega) (show s.lenR.toNat < i + 1 + n by omega)]
    · simp [memReads, memRead_of_ge (Nat.not_lt.1 hi)]

/-- `BE16(hi, lo) = hi * 256 + lo` (R39). -/
theorem be16_toNat (hi lo : Byte) : (be16 hi lo).toNat = hi.toNat * 256 + lo.toNat := by
  have : (be16 hi lo).toNat = hi.toNat <<< 8 ||| lo.toNat := BitVec.toNat_append hi lo
  rw [this, ← Nat.shiftLeft_add_eq_or_of_lt lo.isLt, Nat.shiftLeft_eq]

theorem skipped_iff (i : Nat) : skipped i = true ↔ i = 0x14E ∨ i = 0x14F := by
  simp only [skipped, Bool.and_eq_true, decide_eq_true_eq, skipLo, skipHi]
  omega

/-! The indices the micro-operations read, in the spec's numbers (R42, R53). -/

theorem operandIndices_extEntry : operandIndices .extEntry s = [0x100, 0x101, 0x102, 0x103] := rfl
theorem operandIndices_extTitle : operandIndices .extTitle s = List.range' 0x134 15 := rfl
theorem operandIndices_extCart : operandIndices .extCart s = [0x147] := rfl
theorem operandIndices_extDest : operandIndices .extDest s = [0x14A] := rfl
theorem operandIndices_extCksum :
    operandIndices .extCksum s = if s.lenR.toNat ≤ 0x14F then [] else [0x14E, 0x14F] := rfl
theorem operandIndices_sum :
    operandIndices .sum s = if s.idx = s.lenR ∨ skipped s.idx.toNat then [] else [s.idx.toNat] := rfl

/-- When every index an instruction reads lies inside the buffer, the bus carries them all. -/
theorem busReads_of_inside {i : Instr} (h : ∀ a ∈ operandIndices i s, a < s.lenR.toNat) :
    busReads i s = operandIndices i s := by
  rw [busReads, List.takeWhile_eq_self_iff]
  intro a ha
  simpa using h a ha

/-- The title register from the 15 bytes copied (R79). -/
theorem titleOf_map (f : Nat → Byte) :
    titleOf ((List.range' titleOff titleCopy).map f) =
      Vector.ofFn fun k => if k.val < titleCopy then f (titleOff + k.val) else 0x00 := by
  unfold titleOf
  congr 1
  funext k
  split
  · rename_i h
    rw [List.getD_eq_getElem _ _ (by simpa using h)]
    simp
  · rfl

/-- Byte `k` of packed bytes (R33). -/
theorem packBytes_div (bs : List Byte) (k : Nat) : packBytes bs / 256 ^ k % 256 = (bs.getD k 0).toNat := by
  induction bs generalizing k with
  | nil => simp [packBytes]
  | cons b bs ih =>
    have hb := b.isLt
    cases k with
    | zero => simp [packBytes]; omega
    | succ k =>
      have : packBytes (b :: bs) / 256 = packBytes bs := by simp only [packBytes]; omega
      rw [Nat.pow_succ', ← Nat.div_div_eq_div_mul, this, ih k]
      simp

theorem packBytes_lt (bs : List Byte) : packBytes bs < 256 ^ bs.length := by
  induction bs with
  | nil => simp [packBytes]
  | cons b bs ih =>
    have hb := b.isLt
    simp only [packBytes, List.length_cons, Nat.pow_succ']
    omega

variable (buf : Nat → Byte)

@[simp] theorem byteSum_zero : byteSum buf 0 = 0 := rfl

theorem byteSum_succ (n : Nat) : byteSum buf (n + 1) = byteSum buf n + if skipped n then 0 else (buf n).toNat := by
  rw [byteSum, Finset.sum_range_succ]
  simp only [byteSum, skipped, Bool.and_eq_true, decide_eq_true_eq]

theorem byteSum_congr {b₁ b₂ : Nat → Byte} {n : Nat} (h : ∀ i < n, skipped i = false → b₁ i = b₂ i) :
    byteSum b₁ n = byteSum b₂ n := by
  induction n with
  | zero => rfl
  | succ n ih =>
    rw [byteSum_succ, byteSum_succ, ih fun i hi => h i (by omega)]
    cases hs : skipped n
    · simp [h n (by omega) hs]
    · simp

/-- Adding a zero-extended byte is adding its value modulo 2^16 (R93). -/
theorem ofNat_add_setWidth (n : Nat) (b : Byte) : BitVec.ofNat 16 n + b.setWidth 16 = BitVec.ofNat 16 (n + b.toNat) := by
  apply BitVec.eq_of_toNat_eq
  simp [BitVec.toNat_add, BitVec.toNat_setWidth]

/-! The steps left of a parse (R62, R99). -/

/-- All of them, right after a PARSE. -/
theorem stepsLeft_of_fresh (h : FreshParse s) : stepsLeft s = stepCount s.lenR.toNat := by
  simp [stepsLeft, State.busy, h.seq]

/-- None when no parse runs. -/
theorem stepsLeft_of_not_busy (h : s.busy = false) : stepsLeft s = 0 := if_pos h

/-- The events to come do not count. -/
@[simp] theorem stepsLeft_withPending (p : List Event) : stepsLeft { s with pending := p } = stepsLeft s := rfl

end Sys2Proof.Machine
end

