-- ==== Sys2Proof/Laws/Exec.lean ====
section
/-! SUPPORT. The closed form of each meaning that reads the buffer: what it writes, and where it raises. -/

namespace Sys2Proof.Machine

variable (s : State)

theorem exec_extEntry_eq : exec .extEntry s = .next (if 0x103 < s.lenR.toNat then
    { s with entry0 := be16 (readByte s.buf 0x100) (readByte s.buf 0x101)
             entry1 := be16 (readByte s.buf 0x102) (readByte s.buf 0x103)
             seq := Seq.extTitle }
    else s.raise .truncated) := by
  show execExtEntry s = _
  unfold execExtEntry extEntryAt
  split
  · rename_i h
    rw [memRead_of_lt (show 0x100 < _ by omega), memRead_of_lt (show 0x101 < _ by omega),
      memRead_of_lt (show 0x102 < _ by omega), memRead_of_lt (show 0x103 < _ from h)]
    rfl
  · rename_i h
    rw [memRead_of_ge (i := Config.entryBase + 3) (Nat.not_lt.1 h)]
    cases memRead s Config.entryBase <;> cases memRead s (Config.entryBase + 1) <;>
      cases memRead s (Config.entryBase + 2) <;> rfl

theorem exec_extTitle_eq : exec .extTitle s = .next (if 0x142 < s.lenR.toNat then
    { s with title := Vector.ofFn fun k => if k.val < 15 then readByte s.buf (0x134 + k.val) else 0x00
             seq := Seq.extCart }
    else s.raise .truncated) := by
  show execExtTitle s = _
  unfold execExtTitle
  split
  · rename_i h
    rw [memReads_of_le (show titleOff + titleCopy ≤ _ from h)]
    exact congrArg (fun v => Host.Outcome.next { s with title := v, seq := Seq.extCart }) (titleOf_map _)
  · rename_i h
    rw [memReads_of_gt (show 0 < titleCopy by decide)
      (show s.lenR.toNat < titleOff + titleCopy from by show _ < 0x143; omega)]
    rfl

theorem exec_extCart_eq : exec .extCart s = .next (if 0x147 < s.lenR.toNat then
    { s with cart := (cartLUT (readByte s.buf 0x147)).code, seq := Seq.extDest }
    else s.raise .truncated) := by
  show execExtCart s = _
  unfold execExtCart memRead
  split <;> rfl

theorem exec_extDest_eq : exec .extDest s = .next (if 0x14A < s.lenR.toNat then
    { s with dest := destMap (readByte s.buf 0x14A), seq := Seq.extCksum }
    else s.raise .truncated) := by
  show execExtDest s = _
  unfold execExtDest memRead
  split <;> rfl

theorem exec_extCksum_eq : exec .extCksum s = .next (if 0x14F < s.lenR.toNat then
    { s with cksum := declaredChecksum (readByte s.buf), seq := Seq.extSizes }
    else s.raise .truncated) := by
  show execExtCksum s = _
  unfold execExtCksum
  split
  · rename_i h
    rw [if_neg (show ¬ 0x14F < s.lenR.toNat from Nat.not_lt.2 h)]
  · rename_i h
    have h' : 0x14F < s.lenR.toNat := Nat.not_le.1 h
    rw [if_pos h', memRead_of_lt (show cksumOff < _ from by show 0x14E < _; omega),
      memRead_of_lt (show cksumOff + 1 < _ from h')]
    rfl

theorem exec_sum_eq : exec .sum s = .next (
    if s.idx = s.lenR then { s with seq := Seq.compare }
    else if skipped s.idx.toNat then { s with idx := s.idx + 1 }
    else if s.idx.toNat < s.lenR.toNat then
      { s with sum := s.sum + (readByte s.buf s.idx.toNat).setWidth 16, idx := s.idx + 1 }
    else s.raise .truncated) := by
  show execSum s = _
  unfold execSum memRead
  repeat' split
  all_goals rfl

theorem exec_lenchk_eq : exec .lenchk s = .next (
    if s.lenR.toNat < 0x14F then s.raise .romTooShort else { s with seq := Seq.extEntry }) := by
  show (if s.lenR.toNat < 0x14F then _ else _) = _
  split <;> rfl

theorem exec_compare_eq : exec .compare s = .next (
    if s.sum = s.cksum then { s with status := ParseOutcome.ok.code, seq := Seq.done } else s.raise .badChecksum) := by
  show execCompare s = _
  unfold execCompare
  split <;> rfl

theorem exec_parse_eq : exec .parse s = .next (if s.busy then s else s.beginParse) := by
  show execParse s = _
  unfold execParse
  split <;> rfl

/-- What a host step that answers a next state did: its writes were allowed, and the sampled command answered it. -/
theorem hostStep_next {h : HostStep} {s t : State} (hn : hostStep h s = .next t) :
    (h.writes = [] ∨ mayWrite h s = true) ∧ h.wellFormed = true ∧ sampleCommand h (driveInputs h s) = .next t := by
  unfold hostStep at hn
  split at hn
  · cases hn
  · split at hn
    · cases hn
    · rename_i hw hf
      refine ⟨?_, by simpa using hf, ?_⟩
      · cases hb : mayWrite h s
        · left; simpa [hb] using hw
        · exact .inr rfl
      · unfold observeOutputs at hn
        split at hn
        · rename_i ht
          split at hn
          · cases hn
          · rw [ht]; exact hn
        · cases hn
        · cases hn

/-- Everything sampling `rst` and `cmd` can do when it answers a next state: a reset, a `NOP`, an ignored PARSE or an
accepted one. -/
theorem sampleCommand_next {h : HostStep} {s t : State} (hn : sampleCommand h s = .next t) :
    (h.rst = true ∧ t = s.resetRegisters) ∨ (h.rst = false ∧ h.cmd = 0b00 ∧ t = s) ∨
    (h.rst = false ∧ h.cmd = 0b01 ∧ s.busy = true ∧ t = s) ∨
    (h.rst = false ∧ h.cmd = 0b01 ∧ s.busy = false ∧ t = s.beginParse) := by
  unfold sampleCommand at hn
  cases hr : h.rst with
  | true => simp only [hr, if_true, Host.Outcome.next.injEq] at hn; exact .inl ⟨rfl, hn.symm⟩
  | false =>
    simp only [hr, Bool.false_eq_true, if_false] at hn
    have hc : h.cmd = 0b00 ∨ h.cmd = 0b01 ∨ h.cmd = 0b10 ∨ h.cmd = 0b11 := by
      generalize h.cmd = c; revert c; decide
    rcases hc with hc | hc | hc | hc <;> rw [hc] at hn
    · injection hn with hn; exact .inr (.inl ⟨rfl, hc, hn.symm⟩)
    · rw [show decode (.cmd2 0b01) = .parse from rfl, exec_parse_eq, Host.Outcome.next.injEq] at hn
      cases hb : s.busy with
      | true => rw [hb] at hn; exact .inr (.inr (.inl ⟨rfl, hc, rfl, hn.symm⟩))
      | false => rw [hb] at hn; exact .inr (.inr (.inr ⟨rfl, hc, rfl, hn.symm⟩))
    · cases hn
    · cases hn

/-- A run's first step. -/
theorem run_of_step_next {s t : State} (n : Nat) (h : step s = .next t) :
    Sys2Proof.core.run (n + 1) s = Sys2Proof.core.run n t := by
  have : Sys2Proof.core.step s = .next t := h
  simp only [Host.Core.run, this]

/-- A step with the sequencer to move runs the micro-operation in `SEQ`. -/
theorem step_of_sequencer {s : State} (h : nextEvent s = .sequencer) :
    step s = exec (decodeSeq s.seq) { s with pending := s.pending.tail } := by
  simp only [step, h, runEvent, sequencerStep, decode]

/-- With no event listed the sequencer moves, and the list stays empty. -/
theorem step_of_pending_nil {s : State} (h : s.pending = []) : step s = exec (decodeSeq s.seq) s := by
  have hs : ({ s with pending := s.pending.tail } : State) = s := by rw [h, List.tail_nil, ← h]
  rw [step_of_sequencer (by simp only [nextEvent, h, List.headD_nil]), hs]

/-- A `NOP` step changes nothing. -/
theorem hostStep_nop : hostStep .nop s = .next s := by
  simp only [hostStep, HostStep.nop, HostStep.wellFormed, observeOutputs]
  rfl

/-- What `WAITDONE` does with its turn: it is over, or it waits on behind a sequencer step; the block's registers, the
buffer and `len` stay. -/
theorem waitForDone_eq : waitForDone s =
    .next { s with pending := if s.isDone then s.pending else .sequencer :: .waitDone :: s.pending } := by
  unfold waitForDone
  split
  · rfl
  · exact hostStep_nop _

/-- A step whose event is `WAITDONE`. -/
theorem step_of_waitDone {s : State} {p : List Event} (h : s.pending = .waitDone :: p) :
    step s = .next { s with pending := if s.isDone then p else .sequencer :: .waitDone :: p } := by
  simp only [step, nextEvent, h, List.headD_cons, List.tail_cons, runEvent, waitForDone_eq, State.isDone_withPending]
  rfl

/-- Everything a step can do when it answers a next state. -/
theorem step_next {s t : State} (hn : step s = .next t) :
    (nextEvent s = .sequencer ∧ exec (decodeSeq s.seq) { s with pending := s.pending.tail } = .next t) ∨
    (∃ h, nextEvent s = .host h ∧ (h.writes = [] ∨ mayWrite h s = true) ∧ h.wellFormed = true ∧
      sampleCommand h (driveInputs h { s with pending := s.pending.tail }) = .next t) ∨
    nextEvent s = .waitDone ∧ t = { s with
      pending := if s.isDone then s.pending.tail else .sequencer :: .waitDone :: s.pending.tail } := by
  unfold step at hn
  cases he : nextEvent s with
  | sequencer => rw [he] at hn; exact .inl ⟨rfl, hn⟩
  | host h =>
    rw [he] at hn
    obtain ⟨h1, h2, h3⟩ := hostStep_next hn
    exact .inr (.inl ⟨h, rfl, h1, h2, h3⟩)
  | waitDone =>
    rw [he] at hn
    simp only [runEvent, waitForDone_eq, State.isDone_withPending, Host.Outcome.next.injEq] at hn
    exact .inr (.inr ⟨rfl, hn.symm⟩)

end Sys2Proof.Machine
end

