-- ==== Sys2Proof/Laws/PerInstr.lean ====
section
/-! SUPPORT. Statements made of every instruction, one lemma per constructor. -/

namespace Sys2Proof.Laws

/-- A well-formed instruction's code falls in a row of the opcode table that has the instruction's mnemonic (R52, R53). -/
def OpcodeRow.Statement (i : Instr) : Prop :=
  i.wellFormed = true → ∃ r ∈ opcodeTable, r.mnemonic = i.mnemonic ∧ r.covers (encode i) = true

theorem OpcodeRow.nop : OpcodeRow.Statement .nop := fun _ => by decide
theorem OpcodeRow.parse : OpcodeRow.Statement .parse := fun _ => by decide
theorem OpcodeRow.reservedCmd10 : OpcodeRow.Statement .reservedCmd10 := fun _ => by decide
theorem OpcodeRow.reservedCmd11 : OpcodeRow.Statement .reservedCmd11 := fun _ => by decide
theorem OpcodeRow.idle : OpcodeRow.Statement .idle := fun _ => by decide
theorem OpcodeRow.lenchk : OpcodeRow.Statement .lenchk := fun _ => by decide
theorem OpcodeRow.extEntry : OpcodeRow.Statement .extEntry := fun _ => by decide
theorem OpcodeRow.extTitle : OpcodeRow.Statement .extTitle := fun _ => by decide
theorem OpcodeRow.extCart : OpcodeRow.Statement .extCart := fun _ => by decide
theorem OpcodeRow.extDest : OpcodeRow.Statement .extDest := fun _ => by decide
theorem OpcodeRow.extCksum : OpcodeRow.Statement .extCksum := fun _ => by decide
theorem OpcodeRow.extSizes : OpcodeRow.Statement .extSizes := fun _ => by decide
theorem OpcodeRow.sum : OpcodeRow.Statement .sum := fun _ => by decide
theorem OpcodeRow.compare : OpcodeRow.Statement .compare := fun _ => by decide
theorem OpcodeRow.done : OpcodeRow.Statement .done := fun _ => by decide
theorem OpcodeRow.reservedSeqB : OpcodeRow.Statement .reservedSeqB := fun _ => by decide
theorem OpcodeRow.reservedSeqCF (code : BitVec 4) : OpcodeRow.Statement (.reservedSeqCF code) := by
  revert code; unfold OpcodeRow.Statement; decide

end Sys2Proof.Laws
end

