-- ==== Sys2Proof/Tests/Slice0.lean ====
section
/-! SUPPORT. The model's own tests: ill-formed terms, words written out from the encodings, one step of each instruction
from spec/95_test_vectors.md, and one state meeting the hypotheses of each statement, at the boundaries of its clauses. -/

namespace Sys2Proof.Tests

open Sys2Proof Sys2Proof.Machine

/-! ## Helpers -/

/-- A state at a micro-operation, with the sampled length and the buffer given. -/
def at_ (code : BitVec 4) (n : Index) (m : Memory := []) : State := { State.reset with seq := code, lenR := n, buf := m }

/-- The next state, where there is one. -/
def after : Host.Outcome State Fault Refusal → Option State
  | .next t => some t
  | _ => none

/-- The refusal, where there is one. -/
def refusal : Host.Outcome State Fault Refusal → Option Refusal
  | .refused r => some r
  | _ => none

theorem byteSum_empty (n : Nat) : byteSum (readByte []) n = 0 := by
  simp [byteSum, readByte, Memory.unlisted]

/-! ## WellFormed: the terms it refuses -/

theorem smoke_reserved_code_of_another_row : (Instr.reservedSeqCF 0xB).wellFormed = false := by decide
theorem smoke_write_outside_the_index_space : HostStep.wellFormed { writes := [(2 ^ 32, 0x00)] } = false := by decide
theorem smoke_write_at_the_last_index : HostStep.wellFormed { writes := [(2 ^ 32 - 1, 0x00)] } = true := by decide

/-! ## Decode: words written out from the tables of R52 and R53 -/

theorem word_nop : decode (.cmd2 0b00) = .nop := by decide
theorem word_parse : decode (.cmd2 0b01) = .parse := by decide
theorem word_reserved_cmd_10 : decode (.cmd2 0b10) = .reservedCmd10 := by decide
theorem word_reserved_cmd_11 : decode (.cmd2 0b11) = .reservedCmd11 := by decide
theorem word_idle : decode (.seq4 0b0000) = .idle := by decide
theorem word_lenchk : decode (.seq4 0b0001) = .lenchk := by decide
theorem word_ext_entry : decode (.seq4 0b0010) = .extEntry := by decide
theorem word_ext_title : decode (.seq4 0b0011) = .extTitle := by decide
theorem word_ext_cart : decode (.seq4 0b0100) = .extCart := by decide
theorem word_ext_dest : decode (.seq4 0b0101) = .extDest := by decide
theorem word_ext_cksum : decode (.seq4 0b0110) = .extCksum := by decide
theorem word_ext_sizes : decode (.seq4 0b0111) = .extSizes := by decide
theorem word_sum : decode (.seq4 0b1000) = .sum := by decide
theorem word_compare : decode (.seq4 0b1001) = .compare := by decide
theorem word_done : decode (.seq4 0b1010) = .done := by decide
theorem word_reserved_seq_b : decode (.seq4 0b1011) = .reservedSeqB := by decide
theorem word_reserved_seq_c_f :
    [0b1100#4, 0b1101#4, 0b1110#4, 0b1111#4].map (fun c => decode (.seq4 c)) =
      [.reservedSeqCF 0xC, .reservedSeqCF 0xD, .reservedSeqCF 0xE, .reservedSeqCF 0xF] := by decide

/-- The rows of the opcode table are as many as the constructors. -/
theorem table_rows : opcodeTable.length = 17 := by decide

/-- A number wider than the format is rejected (R51). -/
theorem decode_rejects_wide :
    decodeTableWord 2 4 = none ∧ decodeTableWord 4 16 = none ∧ decodeTableWord 2 3 = some .reservedCmd11 ∧
      decodeTableWord 8 0xA = some .done := by decide

/-- The state `withFetchWord` gives runs exactly the word placed, from reset (R66 and R73). -/
theorem fetch_runs_the_word :
    (after (step (State.reset.withFetchWord 2 0b01))).map (·.seq) = some 0x1 ∧
      (after (step (State.reset.withFetchWord 8 0x1))).map (·.status) = some 0b01 := by decide

/-! ## One step of each instruction (spec/95_test_vectors.md) -/

/-- H1. -/
theorem test_nop : after (exec .nop State.reset) = some State.reset := by decide

/-- H2. -/
theorem test_parse_from_idle :
    (after (exec .parse { State.reset with len := 0x150 })).map (fun t => (t.seq, t.lenR, t.busy)) =
      some (0x1, 0x150, true) := by decide

/-- H3. -/
theorem test_parse_from_done :
    (after (exec .parse { State.reset with seq := 0xA, status := 0b10, cksum := 0x025B, len := 0x150 })).map
      (fun t => (t.seq, t.status, t.cksum, t.isDone)) = some (0x1, 0b00, 0x0000, false) := by decide

/-- H6. -/
theorem test_reserved_commands :
    refusal (exec .reservedCmd10 State.reset) = some .reservedCommand ∧
      refusal (exec .reservedCmd11 (at_ 0xA 0)) = some .reservedCommand := by decide

theorem test_idle : after (exec .idle State.reset) = some State.reset := by decide
theorem test_done : after (exec .done (at_ 0xA 0x150)) = some (at_ 0xA 0x150) := by decide
theorem test_reserved_micro_ops :
    refusal (exec .reservedSeqB (at_ 0xB 0)) = some .reservedMicroOp ∧
      refusal (exec (.reservedSeqCF 0xC) (at_ 0xC 0)) = some .reservedMicroOp := by decide

/-- L1, L3. -/
theorem test_lenchk_short :
    [0x0, 0x14E].map (fun n => (after (exec .lenchk (at_ 0x1 n))).map fun t => (t.seq, t.status)) =
      [some (0xA, 0b01), some (0xA, 0b01)] := by decide

/-- L4, L5, L6. -/
theorem test_lenchk_pass :
    [0x14F, 0x150, 0xFFFFFFFF].map (fun n => (after (exec .lenchk (at_ 0x1 n))).map fun t => (t.seq, t.status)) =
      [some (0x2, 0b00), some (0x2, 0b00), some (0x2, 0b00)] := by decide

/-- E4: high byte first. -/
theorem test_ext_entry :
    (after (exec .extEntry (at_ 0x2 0x150 [(0x100, 0x12), (0x101, 0x34), (0x102, 0x56), (0x103, 0x78)]))).map
      (fun t => (t.entry0, t.entry1, t.seq)) = some (0x1234, 0x5678, 0x3) := by decide

/-- E5: the two values the source allows for `ENTRY_BASE`. -/
theorem test_ext_entry_variants :
    [Config.entryBase, Config.entryBaseVariant].map (fun base =>
      (extEntryAt base (at_ 0x2 0x150 [(0x64, 0x12), (0x65, 0x34), (0x66, 0x56), (0x67, 0x78), (0x101, 0xC3), (0x102, 0x50),
        (0x103, 0x01)])).map fun t => (t.entry0, t.entry1)) = [some (0x00C3, 0x5001), some (0x1234, 0x5678)] := by decide

/-- T2: the copy goes on past a zero byte. -/
theorem test_ext_title_zero_inside :
    (after (exec .extTitle (at_ 0x3 0x150 [(0x134, 0x41), (0x136, 0x42), (0x137, 0x43)]))).map (·.title.toList) =
      some [0x41, 0x00, 0x42, 0x43, 0, 0, 0, 0, 0, 0, 0, 0, 0, 0, 0, 0] := by decide

/-- T3: the bytes 0x142 and 0x143 of sixteen bytes 0xFF. -/
theorem test_ext_title_pad :
    (after (exec .extTitle (at_ 0x3 0x150 [(0x141, 0xFF), (0x142, 0xFF), (0x143, 0xFF)]))).map
      (fun t => (t.title[13], t.title[14], t.title[15], t.seq)) = some (0xFF, 0xFF, 0x00, 0x4) := by decide

/-- K1 to K9. -/
theorem test_ext_cart_boundaries :
    [0x01, 0x03, 0x04, 0x05, 0x06, 0x07, 0x11, 0x12, 0x13, 0x14, 0x18, 0x19, 0x1E, 0x1F, 0xFF].map (fun b =>
      (after (exec .extCart (at_ 0x4 0x150 [(0x147, b)]))).map (·.cart)) =
    [0b001, 0b001, 0b000, 0b010, 0b010, 0b000, 0b000, 0b011, 0b011, 0b000, 0b000, 0b101, 0b101, 0b000, 0b000].map some := by
  decide

/-- DS1, DS2, DS4. -/
theorem test_ext_dest :
    [0x00, 0x01, 0xFF].map (fun b => (after (exec .extDest (at_ 0x5 0x150 [(0x14A, b)]))).map (·.dest)) =
      [some 0, some 1, some 1] := by decide

/-- S2: big-endian. -/
theorem test_ext_cksum :
    (after (exec .extCksum (at_ 0x6 0x150 [(0x14E, 0x5A), (0x14F, 0x02)]))).map (fun t => (t.cksum, t.seq)) =
      some (0x5A02, 0x7) := by decide

/-- S3. -/
theorem test_ext_cksum_truncated :
    (after (exec .extCksum (at_ 0x6 0x14F [(0x14E, 0x77)]))).map (fun t => (t.cksum, t.status, t.seq)) =
      some (0x0000, 0b11, 0xA) := by decide

/-- S4. -/
theorem test_ext_sizes :
    (after (exec .extSizes { at_ 0x7 0x150 [(0x148, 0x05), (0x149, 0x03)] with romSz := 1, ramSz := 2 })).map
      (fun t => (t.romSz, t.ramSz, t.seq)) = some (0x0000, 0x0000, 0x8) := by decide

/-- SM2 and SM4: the carry is discarded, and 0x14F is skipped. -/
theorem test_sum_adds_and_skips :
    (after (exec .sum { at_ 0x8 0x150 [(0x101, 0xFF)] with idx := 0x101, sum := 0xFFFF })).map (fun t => (t.idx, t.sum)) =
        some (0x102, 0x00FE) ∧
      (after (exec .sum { at_ 0x8 0x151 [(0x14F, 0x80)] with idx := 0x14F, sum := 0x1234 })).map (fun t => (t.idx, t.sum)) =
        some (0x150, 0x1234) := by decide

/-- SM5 and SM6. -/
theorem test_sum_past_the_header :
    (after (exec .sum { at_ 0x8 0x150 with idx := 0x150 })).map (·.seq) = some 0x9 ∧
      (after (exec .sum { at_ 0x8 0x151 [(0x150, 0x80)] with idx := 0x150, sum := 0x0001 })).map
        (fun t => (t.idx, t.sum, t.seq)) = some (0x151, 0x0081, 0x8) := by decide

/-- M1, M3. -/
theorem test_compare :
    (after (exec .compare { at_ 0x9 0x150 with sum := 0x025A, cksum := 0x025A })).map (fun t => (t.status, t.hdrValid)) =
        some (0b00, true) ∧
      (after (exec .compare { at_ 0x9 0x150 with sum := 0x025A, cksum := 0x5A02 })).map (fun t => (t.status, t.hdrValid)) =
        some (0b10, false) := by decide

/-! ## Host steps -/

/-- H5: a `len` change does not reach a running parse. -/
theorem test_set_len_while_busy :
    (after (hostStep (.setLen 0x10) { at_ 0x8 0x150 with idx := 5 })).map (fun t => (t.lenR, t.len, t.idx)) =
      some (0x150, 0x10, 5) := by decide

/-- H7. -/
theorem test_reset_while_busy :
    after (hostStep (.reset 0b01) { at_ 0x8 0x150 with idx := 3, sum := 0x0121 }) = some State.reset := by decide

/-- R64: a buffer write while busy is refused; R61: otherwise the bytes land in order. -/
theorem test_load_buf :
    refusal (hostStep (.loadBuf 0x14F [0x5A]) (at_ 0x4 0x150)) = some .bufferWriteDuringParse ∧
      (after (hostStep (.loadBuf 0x134 [0x54, 0x45]) State.reset)).map (·.buf) =
        some [(0x134, 0x54), (0x135, 0x45)] := by decide

/-- Writing what an unlisted index reads as takes the entry off. -/
theorem test_write_keeps_the_form : writeCells [(1, 0x31), (3, 0xF0)] [(2, 0x07), (1, 0x00)] = [(2, 0x07), (3, 0xF0)] := by decide

/-- R33. -/
theorem test_title_port :
    titlePort (Vector.ofFn fun k => if k.val = 0 then 0x54 else if k.val = 1 then 0x45 else 0x00) = 0x4554 := by decide

/-! ## Witnesses: the hypotheses of each statement can be met -/

theorem witness_decode_and_encode : (Instr.reservedSeqCF 0xC).wellFormed = true ∧ (Instr.sum).wellFormed = true := by decide

/-- A host step that drives `len` and writes the buffer's last byte, from reset. -/
def driveAndWrite : HostStep := { cmd := 0b00, drive := some 0x150, writes := [(2 ^ 32 - 1, 0x31)] }

theorem witness_step_runs :
    (State.reset.pending = [] ∧ ({ at_ 0x8 0x150 with pending := [.sequencer] } : State).pending.head? = some .sequencer) ∧
      ({ State.reset with pending := [.host driveAndWrite] } : State).pending = .host driveAndWrite :: [] ∧
      driveAndWrite.rst = false ∧ HostMayMove driveAndWrite { State.reset with pending := [.host driveAndWrite] } :=
  ⟨by decide, rfl, rfl, ⟨by decide, by decide, by decide⟩⟩

/-- Each clause: a write while busy, a write with an accepted PARSE, a write at index 2 ^ 32, a read of `Truncated`. -/
theorem witness_stops :
    ((at_ 0x1 0).busy = true ∧ (HostStep.loadBuf 0 [0x31]).writes ≠ []) ∧
      (({ cmd := 0b01, writes := [(0, 0x31)] } : HostStep).rst = false) ∧
      (∃ c ∈ (HostStep.loadBuf (2 ^ 32) [0x31]).writes, 2 ^ 32 ≤ c.1) ∧
      (HostStep.readPorts.writes = [] ∧ HostStep.readPorts.read = true ∧ HostStep.readPorts.cmd.toNat < 2 ∧
        ({ at_ 0xA 0x14F with status := 0b11 } : State).status = 0b11) :=
  ⟨⟨rfl, List.cons_ne_nil _ _⟩, rfl, ⟨(2 ^ 32, 0x31), List.mem_cons_self, Nat.le_refl _⟩, rfl, rfl, by decide, rfl⟩

theorem witness_reserved_command :
    [({ cmd := 0b10 } : HostStep), { cmd := 0b11 }].map (fun h => (h.rst, h.cmd)) = [(false, 0b10), (false, 0b11)] ∧
      ({ State.reset with pending := [.host { cmd := 0b10 }] } : State).pending = .host { cmd := 0b10 } :: [] := by decide

theorem witness_nop_step : ({ at_ 0x8 0x150 with pending := [.host .nop] } : State).pending = .host .nop :: [] ∧
    ({ at_ 0x8 0x150 with pending := [.host .nop] } : State).busy = true := by decide
theorem witness_hold_states : (at_ 0x0 0).seq = 0x0 ∧ (at_ 0xA 0).seq = 0xA ∧ (at_ 0xA 0).pending = [] := by decide
theorem witness_parse_while_busy : ∀ code ∈ [0x1#4, 0x4#4, 0x9#4], (at_ code 0).seq ≠ 0x0 ∧ (at_ code 0).seq ≠ 0xA := by decide

/-- The lengths on either side of each micro-operation's boundary. -/
theorem witness_length_boundaries :
    ((at_ 0x1 0x14E).lenR.toNat < 0x14F ∧ 0x14F ≤ (at_ 0x1 0x14F).lenR.toNat) ∧
      (0x103 < (at_ 0x2 0x104).lenR.toNat ∧ (at_ 0x2 0x103).lenR.toNat ≤ 0x103) ∧
      (0x142 < (at_ 0x3 0x143).lenR.toNat ∧ (at_ 0x3 0x142).lenR.toNat ≤ 0x142) ∧
      (0x147 < (at_ 0x4 0x148).lenR.toNat ∧ (at_ 0x4 0x147).lenR.toNat ≤ 0x147) ∧
      (0x14A < (at_ 0x5 0x14B).lenR.toNat ∧ (at_ 0x5 0x14A).lenR.toNat ≤ 0x14A) ∧
      ((at_ 0x6 0x14F).lenR.toNat ≤ 0x14F ∧ 0x14F < (at_ 0x6 0x150).lenR.toNat) := by decide

/-- An index past the length, outside the skip range; no parse reaches it. -/
theorem witness_past_the_length :
    (at_ 0x8 0x150).lenR.toNat < ({ at_ 0x8 0x150 with idx := 0x151 } : State).idx.toNat := by decide

theorem witness_dest_bytes :
    readByte (at_ 0x5 0x14B).buf 0x14A = 0x00 ∧ readByte (at_ 0x5 0x14B [(0x14A, 0x01)]).buf 0x14A ≠ 0x00 := by decide

/-- The loop at its end, at both skipped indices, on either side of them, and at its start. -/
theorem witness_sum_clauses :
    [0x150#32, 0x14E, 0x14F, 0x14D, 0x0].map (fun i =>
      let s : State := { at_ 0x8 0x150 with idx := i }
      (decide (s.idx.toNat ≤ s.lenR.toNat), decide (s.idx = s.lenR), decide (s.idx.toNat = 0x14E ∨ s.idx.toNat = 0x14F))) =
    [(true, true, false), (true, false, true), (true, false, true), (true, false, false), (true, false, false)] := by decide

theorem witness_compare : ({ at_ 0x9 0x150 with sum := 0xFFFF, cksum := 0x7FFF } : State).sum ≠ 0x7FFF ∧
    (at_ 0x9 0x150).sum = (at_ 0x9 0x150).cksum := by decide

theorem witness_row_order : cartTable.reverse.Perm cartTable := List.reverse_perm _

theorem witness_declared_checksum :
    0x14F < (at_ 0x6 0x150).lenR.toNat ∧ ∃ t, exec .extCksum (at_ 0x6 0x150) = .next t := ⟨by decide, _, exec_extCksum_eq _⟩

theorem witness_writers : ∃ t, exec .sum (at_ 0x8 0x150) = .next t := ⟨_, exec_sum_eq _⟩

/-- Both cases: `EXT_CKSUM` at length 0x14F, and an extraction that does not raise. -/
theorem witness_extractions :
    (∃ t, Instr.extCksum ∈ [Instr.extEntry, .extTitle, .extCart, .extDest, .extCksum, .extSizes] ∧
      0x14F ≤ (at_ 0x6 0x14F).lenR.toNat ∧ exec .extCksum (at_ 0x6 0x14F) = .next t) ∧
    ∃ t, Instr.extTitle ∈ [Instr.extEntry, .extTitle, .extCart, .extDest, .extCksum, .extSizes] ∧
      0x14F ≤ (at_ 0x3 0x14F).lenR.toNat ∧ exec .extTitle (at_ 0x3 0x14F) = .next t :=
  ⟨⟨_, by decide, by decide, exec_extCksum_eq _⟩, ⟨_, by decide, by decide, exec_extTitle_eq _⟩⟩

theorem witness_error : exec .lenchk (at_ 0x1 0x14E) = .next { at_ 0x1 0x14E with status := 0b01, seq := 0xA } ∧
    (at_ 0x1 0x14E).seq ≠ 0xA := ⟨rfl, by decide⟩

theorem witness_host_step : Memory.wf State.reset.buf ∧ ∃ t, hostStep driveAndWrite State.reset = .next t :=
  ⟨by decide, _, rfl⟩

theorem witness_load_buf :
    Memory.wf State.reset.buf ∧ State.reset.busy = false ∧ 2 ^ 32 - 2 + [0x31#8, 0x00#8].length ≤ 2 ^ 32 := by decide

theorem witness_equal_buffers : Memory.wf [(0x100, 0x31#8)] ∧ Memory.wf ([] : Memory) := by decide

theorem witness_reset_step :
    HostMayMove (.reset 0b11) { at_ 0x8 0x150 with pending := [.host (.reset 0b11)] } ∧ (HostStep.reset 0b11).rst = true :=
  ⟨⟨by decide, by decide, by decide⟩, rfl⟩

theorem witness_observations :
    [0b00#2, 0b01, 0b10, 0b11].map (fun c => observe { at_ 0xA 0x150 with status := c }) =
        [.record (at_ 0xA 0x150).record, .error .romTooShort, .error .badChecksum, .fault] ∧
      (at_ 0x8 0x150).seq ≠ 0xA ∧ (15 : Nat) < 16 := by decide

theorem witness_read :
    observe { at_ 0xA 0x150 with pending := [.host .readPorts] } ≠ .fault ∧
      observe { at_ 0xA 0x14F with status := 0b11, pending := [.host .readPorts] } = .fault := by decide

/-! The invariants, in states a parse passes through. -/

theorem inv_lenchk (n : Index) : Inv (at_ 0x1 n) := by
  constructor <;> first
    | decide
    | exact reset_buf_wf
    | (simp [at_, State.reset]; done)
    | exact fun h => absurd h (by simp [at_, State.isDone])

theorem inv_ext_cksum (n : Index) (h : 0x14F ≤ n.toNat) : Inv (at_ 0x6 n) := by
  constructor <;> first
    | decide
    | exact reset_buf_wf
    | (simp [at_, State.reset, h]; done)
    | exact fun h => absurd h (by simp [at_, State.isDone])

/-- A buffer of zeros at the end of the sum; the declared checksum is given. -/
def comparing (declared : Half) : State := { at_ 0x9 0x150 with idx := 0x150, cksum := declared }

theorem inv_compare (declared : Half) : Inv (comparing declared) := by
  constructor <;> first
    | decide
    | exact reset_buf_wf
    | (simp [comparing, at_, State.reset, byteSum_empty]; done)
    | exact fun h => absurd h (by simp [comparing, at_, State.isDone])

theorem witness_invariant_step :
    Inv (at_ 0x1 0x14F) ∧ FieldsInv (at_ 0x1 0x14F) ∧ ∃ t, step (at_ 0x1 0x14F) = .next t :=
  ⟨inv_lenchk _, by constructor <;> decide, _, rfl⟩

theorem witness_sequencer : Inv (at_ 0x1 0) ∧ (at_ 0x1 0).busy = true ∧ (at_ 0x1 0).pending = [] :=
  ⟨inv_lenchk _, by decide, rfl⟩

/-- A PARSE leaves IDLE, and a reset leaves DONE for IDLE. -/
theorem witness_leaving_a_hold_state :
    (State.reset.busy = false ∧ (after (step { State.reset with pending := [.host .parse] })).map (·.seq) = some 0x1) ∧
      ((at_ 0xA 0).busy = false ∧ (after (step { at_ 0xA 0 with pending := [.host .reset] })).map (·.seq) = some 0x0) := by
  decide

theorem witness_done_is_stable :
    (at_ 0xA 0x150).seq = 0xA ∧ ∃ t, step { at_ 0xA 0x150 with pending := [.host (.loadBuf 0 [0x31])] } = .next t :=
  ⟨rfl, _, rfl⟩

theorem witness_host_step_while_busy :
    (at_ 0x8 0x150).busy = true ∧ nextEvent { at_ 0x8 0x150 with pending := [.host .parse] } = .host .parse ∧
      ∃ t, step { at_ 0x8 0x150 with pending := [.host .parse] } = .next t := ⟨by decide, rfl, _, rfl⟩

theorem witness_reads : Inv (at_ 0x6 0x150) ∧ operandIndices (decode (.seq4 (at_ 0x6 0x150).seq)) (at_ 0x6 0x150) =
    [0x14E, 0x14F] := ⟨inv_ext_cksum _ (by decide), by decide⟩

/-- Two buffers that agree at 0x14A only. -/
theorem witness_driven_bytes :
    (∀ a ∈ busReads .extDest (at_ 0x5 0x150 [(0x14A, 0x01)]), readByte [(0x100, 0x12), (0x14A, 0x01)] a =
        readByte (at_ 0x5 0x150 [(0x14A, 0x01)]).buf a) ∧
      (after (exec .extDest (at_ 0x5 0x150 [(0x14A, 0x01)]))).isSome = true ∧
      (refusal (exec .reservedSeqB (at_ 0xB 0))).isSome = true := by decide

/-- A parse ends in each of the four outcomes. -/
theorem witness_outcomes :
    (Inv (comparing 0x0000) ∧ Inv (comparing 0x0001) ∧ Inv (at_ 0x1 0x14E) ∧ Inv (at_ 0x6 0x14F)) ∧
      [comparing 0x0000, comparing 0x0001, at_ 0x1 0x14E, at_ 0x6 0x14F].map (fun s =>
        (s.busy, (after (step s)).map fun t => (t.seq, t.status))) =
        [(true, some (0xA, 0b00)), (true, some (0xA, 0b10)), (true, some (0xA, 0b01)), (true, some (0xA, 0b11))] :=
  ⟨⟨inv_compare _, inv_compare _, inv_lenchk _, inv_ext_cksum _ (by decide)⟩, by decide⟩

/-! Whole parses. -/

theorem witness_sum_loop : (at_ 0x8 0x150).seq = 0x8 ∧ (at_ 0x8 0x150).idx = 0 ∧ (at_ 0x8 0x150).sum = 0 := by decide

theorem fresh_lenchk (n : Index) (p : List Event) : FreshParse { at_ 0x1 n with pending := p } := ⟨rfl, rfl, rfl⟩

theorem witness_short_parse : FreshParse (at_ 0x1 0x14E) ∧ (at_ 0x1 0x14E).lenR.toNat < 0x14F := ⟨⟨rfl, rfl, rfl⟩, by decide⟩
theorem witness_truncated_parse : FreshParse (at_ 0x1 0x14F) ∧ (at_ 0x1 0x14F).lenR.toNat = 0x14F := ⟨⟨rfl, rfl, rfl⟩, by decide⟩

theorem witness_parse_from_reset : State.reset.busy = false ∧ stepCount (0x150#32).toNat = 345 ∧ stepCount (0x14E#32).toNat = 1 :=
  by decide

/-- A schedule for the six sequencer steps of length 0x14F, with an ignored PARSE, a `len` change and a read among them. -/
def mixed : List Event :=
  [.sequencer, .host .parse, .sequencer, .sequencer, .host (.setLen 0x10), .sequencer, .host .readPorts, .sequencer]

theorem witness_interleaving :
    FreshParse { at_ 0x1 0x14F with pending := mixed ++ .sequencer :: [.host .nop] } ∧
      (∀ e ∈ mixed, quietEvent e = true) ∧ mixed.count .sequencer + 1 = stepCount (at_ 0x1 0x14F).lenR.toNat :=
  ⟨fresh_lenchk _ _, by decide, by decide⟩

/-- A parse from its start, at both lengths where the outcome is settled without the sum. -/
theorem witness_wait_done :
    FreshParse { at_ 0x1 0x14F with pending := [.waitDone] } ∧ stepCount (at_ 0x1 0x14F).lenR.toNat = 6 ∧
      FreshParse { at_ 0x1 0x14E with pending := [.waitDone] } ∧ stepCount (at_ 0x1 0x14E).lenR.toNat = 1 :=
  ⟨fresh_lenchk _ _, by decide, fresh_lenchk _ _, by decide⟩

/-- In DONE, while busy, and in IDLE. -/
theorem witness_waiting :
    (at_ 0xA 0).isDone = true ∧ (at_ 0x8 0x150).isDone = false ∧ (at_ 0x0 0).isDone = false ∧ (at_ 0x0 0).seq = 0x0 ∧
      ({ at_ 0xA 0 with pending := [.waitDone] } : State).pending = .waitDone :: [] := by decide

/-- In mid-parse: at EXT_CKSUM. -/
theorem witness_waiting_in_a_parse :
    Inv { at_ 0x6 0x14F with pending := [.waitDone] } ∧ (at_ 0x6 0x14F).busy = true ∧ stepsLeft (at_ 0x6 0x14F) = 1 := by
  refine ⟨?_, by decide, by decide⟩
  obtain ⟨h1, h2, h3, h4, h5, h6, h7, h8, h9, h10, h11, h12, h13⟩ := inv_ext_cksum 0x14F (by decide)
  exact ⟨h1, h2, h3, h4, h5, h6, h7, h8, h9, h10, h11, h12, h13⟩

/-- P2, step 7: after three steps of a parse of length 0x150, 342 are left; P3, step 9: at index 3 of SUM. -/
theorem test_steps_left :
    stepsLeft (at_ 0x4 0x150) = 342 ∧ stepsLeft { at_ 0x8 0x150 with idx := 3 } = 335 ∧ stepsLeft (at_ 0xA 0x150) = 0 := by
  decide

/-- R62: the wait is over in DONE; from LENCHK of a short buffer it takes one `NOP` and one sequencer step. -/
theorem test_wait_done :
    (after (step { at_ 0xA 0 with pending := [.waitDone] })).map (·.pending) = some [] ∧
      (after (Sys2Proof.core.run 3 { at_ 0x1 0x14E with pending := [.waitDone] })).map (fun t => (t.pending, t.seq)) =
        some ([], 0xA) := by decide

/-- A read with an allowed write, and one with a reset. -/
theorem witness_read_of_truncated :
    [({ writes := [(0, 0x31)], read := true } : HostStep), { rst := true, cmd := 0b11, read := true }].map (fun h =>
        (h.read, h.wellFormed, h.writes.isEmpty, mayWrite h { at_ 0xA 0x14F with status := 0b11 })) =
      [(true, true, false, true), (true, true, true, true)] := by decide

/-- CK6: the buffer of zeros, declared 0x0000, is `OK`; its first and last summed bytes can be changed. -/
theorem witness_summed_byte :
    (∃ r, parseFunction 0x150 (readByte []) = .record r) ∧ (0x01 : Byte) ≠ readByte [] 0 ∧ 0x14D < 0x150 ∧ 0x14D ≠ 0x14E := by
  refine ⟨⟨recordOf (readByte []), ?_⟩, by decide⟩
  rw [parseFunction, if_neg (by decide), if_neg (by decide), checksum, byteSum_empty, if_pos (by decide)]

theorem witness_byte_143 : (0x5A : Byte) ≠ readByte [] 0x143 ∧ 0x150 ≤ 0x150 := by decide

theorem witness_beyond_the_length : ∀ i < 0x150, readByte [(0x150, 0xFF)] i = readByte [] i := by
  intro i hi
  have : (0x150 : Nat) ≠ i := by omega
  simp [readByte, this]

end Sys2Proof.Tests
end

section
/-! PROOF. An outcome is an instruction's only way into DONE, and in a hold state nothing moves by itself
(R11, R69, R70, R107). -/

namespace Sys2Proof.Machine

variable {s t : State}

/-- An extraction leads out of DONE where its reads lie inside the buffer, and to an outcome where they do not. -/
theorem exec_next_of_ite {i : Instr} {c : Prop} [Decidable c] {u : State} {e : ParseOutcome}
    (hi : exec i s = .next (if c then u else s.raise e)) (hu : u.seq ≠ Seq.done) (hn : exec i s = .next t) :
    t.seq ≠ Seq.done ∨ ∃ e, t = s.raise e := by
  rw [hi, Host.Outcome.next.injEq] at hn
  subst hn
  split
  · exact .inl hu
  · exact .inr ⟨e, rfl⟩

/-- Where an instruction that answers a next state can lead: `SEQ` stays, or it is not DONE afterwards, or the instruction
wrote an outcome and nothing else. `OK` is written as every outcome is, in `STATUS` and `SEQ` alone (R94). -/
theorem exec_next {i : Instr} (hn : exec i s = .next t) :
    t.seq = s.seq ∨ t.seq ≠ Seq.done ∨ ∃ e, t = s.raise e := by
  cases i with
  | nop | idle | done => cases hn; exact .inl rfl
  | reservedCmd10 | reservedCmd11 | reservedSeqB | reservedSeqCF => cases hn
  | parse =>
    rw [exec_parse_eq, Host.Outcome.next.injEq] at hn
    subst hn
    split
    · exact .inl rfl
    · exact .inr (.inl (by simp))
  | lenchk =>
    rw [exec_lenchk_eq, Host.Outcome.next.injEq] at hn
    subst hn
    split
    · exact .inr (.inr ⟨.romTooShort, rfl⟩)
    · exact .inr (.inl (by simp))
  | extEntry => exact .inr (exec_next_of_ite (exec_extEntry_eq s) (by simp) hn)
  | extTitle => exact .inr (exec_next_of_ite (exec_extTitle_eq s) (by simp) hn)
  | extCart => exact .inr (exec_next_of_ite (exec_extCart_eq s) (by simp) hn)
  | extDest => exact .inr (exec_next_of_ite (exec_extDest_eq s) (by simp) hn)
  | extCksum => exact .inr (exec_next_of_ite (exec_extCksum_eq s) (by simp) hn)
  | extSizes => cases hn; exact .inr (.inl (by simp))
  | sum =>
    rw [exec_sum_eq, Host.Outcome.next.injEq] at hn
    subst hn
    split_ifs
    · exact .inr (.inl (by simp))
    · exact .inl rfl
    · exact .inl rfl
    · exact .inr (.inr ⟨.truncated, rfl⟩)
  | compare =>
    rw [exec_compare_eq, Host.Outcome.next.injEq] at hn
    subst hn
    split
    · exact .inr (.inr ⟨.ok, rfl⟩)
    · exact .inr (.inr ⟨.badChecksum, rfl⟩)

/-- An instruction that enters DONE writes its outcome and nothing else. -/
theorem exec_enters_done {i : Instr} (hn : exec i s = .next t) (hs : s.seq ≠ Seq.done) (ht : t.seq = Seq.done) :
    ∃ e, t = s.raise e := by
  rcases exec_next hn with hkeep | hout | hraise
  · exact absurd (hkeep.symm.trans ht) hs
  · exact absurd ht hout
  · exact hraise

/-- In DONE, with no event listed, a step changes nothing (R70, log entry 3). -/
theorem step_done (hseq : s.seq = Seq.done) (hp : s.pending = []) : step s = .next s := by
  rw [step_of_pending_nil hp, hseq]
  rfl

/-- A state that a step leaves as it is stays so over any number of steps. -/
theorem run_of_step_self (h : step s = .next s) (n : Nat) : Sys2Proof.core.run n s = .next s := by
  induction n with
  | zero => rfl
  | succ n ih => rw [run_of_step_next n h, ih]

/-- Settles O28: the only entry into DONE from outside it is an outcome's, and DONE keeps its state. -/
theorem anErrorWritesOnlyStatusAndSeq : Obligations.AnErrorWritesOnlyStatusAndSeq := by
  intro i s t hn hs ht _
  constructor
  · obtain ⟨e, rfl⟩ := exec_enters_done hn hs ht
    rfl
  · exact run_of_step_self (step_done ht rfl)

end Sys2Proof.Machine
end

section
/-! PROOF. The control invariant: what clearing the registers, an outcome, the host and each micro-operation leave of it
(R14, R17, R20, R23, R26, R56, R75, R83, R91, R93, R95, R101). -/

namespace Sys2Proof.Machine

variable {s t : State}

/-! ## Parts of the invariant that are facts of the encoding -/

/-- Every code of `SEQ` is the code of the instruction it decodes to (R53). -/
theorem encode_decodeSeq (c : BitVec 4) : encode (decodeSeq c) = .seq4 c := by
  revert c; decide

/-- The lookup yields only the five codes of R59. -/
theorem CartType.code_legal (v : CartType) : v.code ≠ 0b100 ∧ v.code ≠ 0b110 ∧ v.code ≠ 0b111 := by
  cases v <;> decide

/-! ## Where an outcome can stand -/

theorem State.not_isDone_of_lt (h : s.seq.toNat < 0xA) : s.isDone = false := by
  rw [Bool.eq_false_iff]
  intro hd
  rw [(State.isDone_iff s).1 hd] at h
  exact absurd h (by decide)

/-- Outside DONE no outcome is there to have a cause (R17). -/
theorem outcomeCause_of_seq_ne (h : s.seq ≠ Seq.done) (hd : s.isDone = true) : OutcomeCause s :=
  absurd ((State.isDone_iff s).1 hd) h

/-! ## Cleared registers -/

/-- A PARSE and a reset clear the registers, and leave in `SEQ` LENCHK or IDLE, and in `LEN_R` some length (R66, R117). -/
theorem inv_of_cleared (hb : Memory.wf s.buf) (n : Index) {c : BitVec 4} (hc : c.toNat ≤ 1) :
    Inv { s.resetRegisters with lenR := n, seq := c } where
  seq_legal := Nat.le_trans hc (by decide)
  cart_legal := CartType.none.code_legal
  sizes_zero := ⟨rfl, rfl⟩
  pad_zero := rfl
  status_clear _ := rfl
  idx_le := Nat.zero_le _
  buf_wf := hb
  len_passed h _ := absurd (Nat.le_trans h hc) (by decide)
  len_complete h _ := absurd (Nat.le_trans h hc) (by decide)
  loop_clear _ := ⟨rfl, rfl⟩
  sum_partial h _ := absurd (Nat.le_trans h hc) (by decide)
  loop_over h := absurd (h ▸ hc : Seq.compare.toNat ≤ 1) (by decide)
  outcome_cause := outcomeCause_of_seq_ne fun h => absurd (h ▸ hc : Seq.done.toNat ≤ 1) (by decide)

theorem fieldsInv_of_cleared (n : Index) {c : BitVec 4} (hc : c.toNat ≤ 1) :
    FieldsInv { s.resetRegisters with lenR := n, seq := c } where
  entry_clear _ := ⟨rfl, rfl⟩
  title_clear _ := rfl
  cart_clear _ := rfl
  dest_clear _ := rfl
  cksum_clear _ := rfl
  entry h _ := absurd (Nat.le_trans h hc) (by decide)
  title h _ := absurd (Nat.le_trans h hc) (by decide)
  cart h _ := absurd (Nat.le_trans h hc) (by decide)
  dest h _ := absurd (Nat.le_trans h hc) (by decide)
  cksum h _ := absurd (Nat.le_trans h hc) (by decide)

theorem inv_resetRegisters (hb : Memory.wf s.buf) : Inv s.resetRegisters :=
  inv_of_cleared hb 0 (c := Seq.idle) (by decide)

theorem inv_beginParse (hb : Memory.wf s.buf) : Inv s.beginParse :=
  inv_of_cleared hb s.len (c := Seq.lenchk) (by decide)

theorem fieldsInv_resetRegisters : FieldsInv s.resetRegisters :=
  fieldsInv_of_cleared 0 (c := Seq.idle) (by decide)

theorem fieldsInv_beginParse : FieldsInv s.beginParse :=
  fieldsInv_of_cleared s.len (c := Seq.lenchk) (by decide)

/-! ## The host -/

/-- The events to come are no part of the invariant. -/
theorem Inv.withPending (hs : Inv s) (p : List Event) : Inv { s with pending := p } := { hs with }

/-- The host may write only in a hold state (R64), so no partial sum is under way. -/
theorem hold_of_mayWrite {h : HostStep} (hm : mayWrite h s = true) : s.seq = Seq.idle ∨ s.seq = Seq.done := by
  by_contra hn
  rw [not_or] at hn
  simp [mayWrite, (State.busy_iff s).2 hn] at hm

/-- What the host drives keeps the invariant: a byte of the buffer changes only while no parse runs (R64, R123). -/
theorem Inv.driveInputs {h : HostStep} (hs : Inv s) (hw : h.writes = [] ∨ mayWrite h s = true)
    (hwf : h.wellFormed = true) : Inv (driveInputs h s) :=
  { hs with
    buf_wf := wf_writeCells (HostStep.writes_lt hwf) hs.buf_wf
    sum_partial := by
      intro h8 h9
      rw [driveInputs_seq] at h8 h9
      rcases hw with hnone | hmay
      · simpa [hnone, writeCells] using hs.sum_partial h8 h9
      · rcases hold_of_mayWrite hmay with hseq | hseq <;> rw [hseq] at h8 h9
        · exact absurd h8 (by decide)
        · exact absurd h9 (by decide) }

/-- Sampling `rst` and `cmd` keeps the invariant: a reset or an accepted PARSE starts it afresh. -/
theorem Inv.sampleCommand {h : HostStep} (hs : Inv s) (hn : sampleCommand h s = .next t) : Inv t := by
  rcases sampleCommand_next hn with ⟨-, rfl⟩ | ⟨-, -, rfl⟩ | ⟨-, -, -, rfl⟩ | ⟨-, -, -, rfl⟩
  · exact inv_resetRegisters hs.buf_wf
  · exact hs
  · exact hs
  · exact inv_beginParse hs.buf_wf

/-! ## The micro-operations -/

/-- An outcome whose cause holds keeps the invariant (R101): in DONE nothing is asked of the loop and its lengths. -/
theorem Inv.raise (hs : Inv s) {e : ParseOutcome} (hcause : OutcomeCause (s.raise e)) : Inv (s.raise e) :=
  have hlast : ¬ Seq.done.toNat ≤ 9 := by decide
  { hs with
    seq_legal := Nat.le_refl Seq.done.toNat
    status_clear := fun h => absurd ((State.isDone_iff (s.raise e)).2 rfl) (by simp [h])
    len_passed := fun _ h => absurd h hlast
    len_complete := fun _ h => absurd h hlast
    loop_clear := fun h => absurd (Nat.le_succ_of_le (Nat.le_of_lt h)) hlast
    sum_partial := fun _ h => absurd h hlast
    loop_over := fun h => absurd (show Seq.done = Seq.compare from h) (by decide)
    outcome_cause := fun _ => hcause }

/-- A micro-operation before SUM that passes its length check hands the loop on as PARSE left it: SUM's partial sum of
no byte is 0. -/
theorem Inv.advance (hs : Inv s) (hpre : s.seq.toNat < 8) {c : BitVec 4} (hc : c.toNat ≤ 8)
    (hlen : 0x14F ≤ s.lenR.toNat) (hfull : 7 ≤ c.toNat → 0x150 ≤ s.lenR.toNat) : Inv { s with seq := c } := by
  obtain ⟨hidx, hsum⟩ := hs.loop_clear hpre
  exact { hs with
    seq_legal := Nat.le_trans hc (by decide)
    status_clear := fun _ => hs.status_clear (State.not_isDone_of_lt (by omega))
    len_passed := fun _ _ => hlen
    len_complete := fun h _ => hfull h
    loop_clear := fun _ => ⟨hidx, hsum⟩
    sum_partial := fun _ _ => by simp [hidx, hsum]
    loop_over := fun h => absurd (h ▸ hc : Seq.compare.toNat ≤ 8) (by decide)
    outcome_cause := outcomeCause_of_seq_ne fun h => absurd (h ▸ hc : Seq.done.toNat ≤ 8) (by decide) }

/-- EXT_ENTRY to EXT_DEST run past LENCHK, and each may hand over to the next (R53, R75). -/
theorem Inv.nextField (hs : Inv s) {c : BitVec 4} (hseq : c = s.seq) (hc : 2 ≤ c.toNat ∧ c.toNat ≤ 5) :
    0x14F ≤ s.lenR.toNat ∧ Inv { s with seq := c + 1 } := by
  have hlen := hs.len_passed (hseq ▸ hc.1) (by rw [← hseq]; omega)
  have hnext : (c + 1).toNat = c.toNat + 1 := by
    rw [BitVec.toNat_add]
    exact Nat.mod_eq_of_lt (show c.toNat + 1 < 16 by omega)
  exact ⟨hlen, hs.advance (by rw [← hseq]; omega) (by omega) hlen (by omega)⟩

/-- Of the title register the invariant knows the padding byte alone (R23). -/
theorem Inv.withTitle (hs : Inv s) {v : Vector Byte 16} (hv : v[15] = 0x00) : Inv { s with title := v } :=
  { hs with pad_zero := hv }

/-- One turn of SUM's loop keeps the invariant when it leaves the partial sum of one index more (R93, R95). -/
theorem Inv.sumNext (hs : Inv s) (hseq : s.seq = Seq.sum) (hlt : s.idx.toNat < s.lenR.toNat) {v : Half}
    (hv : v = BitVec.ofNat 16 (byteSum (readByte s.buf) (s.idx.toNat + 1))) :
    Inv { s with sum := v, idx := s.idx + 1 } := by
  have hidx : (s.idx + 1).toNat = s.idx.toNat + 1 := by
    have := s.lenR.isLt
    rw [BitVec.toNat_add]
    exact Nat.mod_eq_of_lt (show s.idx.toNat + 1 < 2 ^ 32 by omega)
  exact { hs with
    idx_le := hidx ▸ hlt
    loop_clear := fun h => absurd (hseq ▸ h : Seq.sum.toNat < 8) (by decide)
    sum_partial := fun _ _ => by rw [hidx]; exact hv
    loop_over := fun h => absurd (hseq.symm.trans h) (by decide)
    outcome_cause := outcomeCause_of_seq_ne fun h => absurd (hseq.symm.trans h) (by decide) }

/-- The end of SUM's loop keeps the invariant: COMPARE finds the whole sum (R93). -/
theorem Inv.sumOver (hs : Inv s) (hseq : s.seq = Seq.sum) (hend : s.idx = s.lenR) :
    Inv { s with seq := Seq.compare } :=
  have hfull := hs.len_complete (hseq ▸ by decide) (hseq ▸ by decide)
  { hs with
    seq_legal := show Seq.compare.toNat ≤ 0xA by decide
    status_clear := fun _ => hs.status_clear (State.not_isDone_of_lt (hseq ▸ by decide))
    len_passed := fun _ _ => Nat.le_of_succ_le hfull
    len_complete := fun _ _ => hfull
    loop_clear := fun h => absurd (show Seq.compare.toNat < 8 from h) (by decide)
    sum_partial := fun _ _ => hs.sum_partial (hseq ▸ by decide) (hseq ▸ by decide)
    loop_over := fun _ => hend
    outcome_cause := outcomeCause_of_seq_ne (show Seq.compare ≠ Seq.done by decide) }

theorem Inv.execSum (hs : Inv s) (hseq : s.seq = Seq.sum) (hn : exec .sum s = .next t) : Inv t := by
  have hsum := hs.sum_partial (hseq ▸ by decide) (hseq ▸ by decide)
  have hlt (hgo : s.idx ≠ s.lenR) : s.idx.toNat < s.lenR.toNat :=
    lt_of_le_of_ne hs.idx_le fun h => hgo (BitVec.eq_of_toNat_eq h)
  obtain rfl := Host.Outcome.next.inj ((exec_sum_eq s).symm.trans hn)
  split_ifs with hend hskip hin
  · exact hs.sumOver hseq hend
  · exact hs.sumNext hseq (hlt hend) (by rw [byteSum_succ, if_pos hskip]; exact hsum)
  · exact hs.sumNext hseq hin (by rw [byteSum_succ, if_neg hskip, ← ofNat_add_setWidth, ← hsum])
  · exact absurd (hlt hend) hin

theorem Inv.execCompare (hs : Inv s) (hseq : s.seq = Seq.compare) (hn : exec .compare s = .next t) : Inv t := by
  have hfull := hs.len_complete (hseq ▸ by decide) (hseq ▸ by decide)
  obtain rfl := Host.Outcome.next.inj ((exec_compare_eq s).symm.trans hn)
  split_ifs with heq
  · exact hs.raise (e := .ok) ⟨hfull, heq⟩
  · exact hs.raise (e := .badChecksum) ⟨hfull, heq⟩

/-- A micro-operation executed from its own code in `SEQ` keeps the invariant. Past LENCHK every read but those of
EXT_CKSUM lies below 0x14F, so of the extractions EXT_CKSUM alone can raise (R75, R77, R83). -/
theorem Inv.exec {i : Instr} (hs : Inv s) (hi : encode i = .seq4 s.seq) (hn : exec i s = .next t) : Inv t := by
  cases i with
  | nop | parse | reservedCmd10 | reservedCmd11 => cases hi
  | reservedSeqB | reservedSeqCF => cases hn
  | idle | done => cases hn; exact hs
  | lenchk =>
    have hseq : Seq.lenchk = s.seq := CodeWord.seq4.inj hi
    obtain rfl := Host.Outcome.next.inj ((exec_lenchk_eq s).symm.trans hn)
    split_ifs with hshort
    · exact hs.raise hshort
    · exact hs.advance (hseq ▸ by decide) (by decide) (Nat.not_lt.1 hshort) (fun h => absurd h (by decide))
  | extEntry =>
    obtain ⟨hlen, hnext⟩ := hs.nextField (CodeWord.seq4.inj hi) (by decide)
    rw [exec_extEntry_eq, if_pos (by omega)] at hn
    cases hn
    exact { hnext with }
  | extTitle =>
    obtain ⟨hlen, hnext⟩ := hs.nextField (CodeWord.seq4.inj hi) (by decide)
    rw [exec_extTitle_eq, if_pos (by omega)] at hn
    cases hn
    exact hnext.withTitle (by simp)
  | extCart =>
    obtain ⟨hlen, hnext⟩ := hs.nextField (CodeWord.seq4.inj hi) (by decide)
    rw [exec_extCart_eq, if_pos (by omega)] at hn
    cases hn
    exact { hnext with cart_legal := CartType.code_legal _ }
  | extDest =>
    obtain ⟨hlen, hnext⟩ := hs.nextField (CodeWord.seq4.inj hi) (by decide)
    rw [exec_extDest_eq, if_pos (by omega)] at hn
    cases hn
    exact { hnext with }
  | extCksum =>
    have hseq : Seq.extCksum = s.seq := CodeWord.seq4.inj hi
    have hlen := hs.len_passed (hseq ▸ by decide) (hseq ▸ by decide)
    obtain rfl := Host.Outcome.next.inj ((exec_extCksum_eq s).symm.trans hn)
    split_ifs with hfull
    · have hnext := hs.advance (c := Seq.extSizes) (hseq ▸ by decide) (by decide) hlen (fun _ => hfull)
      exact { hnext with outcome_cause := outcomeCause_of_seq_ne (show Seq.extSizes ≠ Seq.done by decide) }
    · exact hs.raise (Nat.le_antisymm (Nat.not_lt.1 hfull) hlen)
  | extSizes =>
    have hseq : Seq.extSizes = s.seq := CodeWord.seq4.inj hi
    have hfull := hs.len_complete (hseq ▸ by decide) (hseq ▸ by decide)
    have hnext := hs.advance (c := Seq.sum) (hseq ▸ by decide) (by decide) (Nat.le_of_succ_le hfull) (fun _ => hfull)
    cases hn
    exact { hnext with sizes_zero := ⟨rfl, rfl⟩ }
  | sum => exact hs.execSum (CodeWord.seq4.inj hi).symm hn
  | compare => exact hs.execCompare (CodeWord.seq4.inj hi).symm hn

/-- Settles O39, by the agent that moves: the sequencer, the host, or a host that waits. -/
theorem everyStepKeepsTheControlInvariant : Obligations.EveryStepKeepsTheControlInvariant := by
  intro s t hs hn
  have hs' := hs.withPending s.pending.tail
  rcases step_next hn with ⟨-, hexec⟩ | ⟨h, -, hw, hwf, hcmd⟩ | ⟨-, rfl⟩
  · exact hs'.exec (encode_decodeSeq _) hexec
  · exact (hs'.driveInputs hw hwf).sampleCommand hcmd
  · exact hs.withPending _

/-- Settles O38: the reset state is a state with its registers cleared. -/
theorem resetMeetsTheInvariants : Obligations.ResetMeetsTheInvariants :=
  ⟨inv_resetRegisters (s := State.reset) reset_buf_wf, fieldsInv_resetRegisters (s := State.reset)⟩

end Sys2Proof.Machine
end

section
/-! PROOF. Which instruction writes which register (R13, R19, R28, R38). -/

namespace Sys2Proof.Machine

variable {s t : State}

/-- An extraction writes its registers where its reads lie inside the buffer, and raises where they do not (R37). -/
theorem exec_writes_or_raises {i : Instr} {c : Prop} [Decidable c] {u : State} {e : ParseOutcome}
    (hi : exec i s = .next (if c then u else s.raise e)) (hn : exec i s = .next t) : t = u ∨ t = s.raise e := by
  rw [hi, Host.Outcome.next.injEq] at hn
  subst hn
  exact ite_eq_or_eq c u (s.raise e)

/-- Settles O26, instruction by instruction: what it writes when it completes, and an error's `STATUS` and `SEQ`. -/
theorem eachRegisterHasItsWriters : Obligations.EachRegisterHasItsWriters := by
  intro i s t hn
  cases i with
  | nop | idle | done => cases hn; simp
  | reservedCmd10 | reservedCmd11 | reservedSeqB | reservedSeqCF => cases hn
  | parse =>
    obtain rfl := Host.Outcome.next.inj ((exec_parse_eq s).symm.trans hn)
    split <;> simp
  | lenchk =>
    obtain rfl := Host.Outcome.next.inj ((exec_lenchk_eq s).symm.trans hn)
    split <;> simp [ParseOutcome.code]
  | extEntry => rcases exec_writes_or_raises (exec_extEntry_eq s) hn with rfl | rfl <;> simp [ParseOutcome.code]
  | extTitle => rcases exec_writes_or_raises (exec_extTitle_eq s) hn with rfl | rfl <;> simp [ParseOutcome.code]
  | extCart => rcases exec_writes_or_raises (exec_extCart_eq s) hn with rfl | rfl <;> simp [ParseOutcome.code]
  | extDest => rcases exec_writes_or_raises (exec_extDest_eq s) hn with rfl | rfl <;> simp [ParseOutcome.code]
  | extCksum => rcases exec_writes_or_raises (exec_extCksum_eq s) hn with rfl | rfl <;> simp [ParseOutcome.code]
  | extSizes => cases hn; simp
  | sum =>
    obtain rfl := Host.Outcome.next.inj ((exec_sum_eq s).symm.trans hn)
    split_ifs <;> simp [ParseOutcome.code]
  | compare =>
    obtain rfl := Host.Outcome.next.inj ((exec_compare_eq s).symm.trans hn)
    split <;> simp

end Sys2Proof.Machine
end

section
/-! PROOF. What the host sees: the derived indications, the ports and the observation of a parse (R15 to R18, R32 to R35,
R104), and the state after reset (R13, R118). -/

namespace Sys2Proof.Machine

variable {s t : State}

/-! ## The derived indications and the ports -/

theorem State.hdrValid_iff : s.hdrValid = true ↔ s.seq = Seq.done ∧ s.status = 0b00 := by
  simp [State.hdrValid, State.isDone, ParseOutcome.code]

/-- Settles O34: each indication has its own law, and the ports carry the three as they are. -/
theorem derivedIndications : Obligations.DerivedIndications := fun s =>
  ⟨State.busy_iff s, State.isDone_iff s, State.hdrValid_iff, rfl, rfl, rfl⟩

/-- The 16 bytes of the title fit the port's 128 bits, so packing loses none (R33). -/
theorem titlePort_toNat (v : Vector Byte 16) : (titlePort v).toNat = packBytes v.toList := by
  have hlt : packBytes v.toList < 2 ^ 128 := by simpa using packBytes_lt v.toList
  rw [titlePort, BitVec.toNat_ofNat, Nat.mod_eq_of_lt hlt]

/-- Settles O36: the port is the packed bytes, and a right shift by `8k` divides them by `256 ^ k`. -/
theorem titlePortPacksByteKAtBit8K : Obligations.TitlePortPacksByteKAtBit8K := by
  intro s k hk
  apply BitVec.eq_of_toNat_eq
  calc (((ports s).title >>> (8 * k)).setWidth 8).toNat
      = packBytes s.title.toList / 256 ^ k % 256 := by
        simp [ports, titlePort_toNat, Nat.shiftRight_eq_div_pow, Nat.pow_mul]
    _ = (s.title.toList.getD k 0).toNat := packBytes_div _ k
    _ = s.title[k].toNat := by simp [hk]

/-! ## The observation of a parse -/

theorem observe_of_seq_ne (h : s.seq ≠ Seq.done) : observe s = .none :=
  if_neg (mt (State.isDone_iff s).1 h)

theorem observe_of_ok (hd : s.seq = Seq.done) (hst : s.status = 0b00) : observe s = .record s.record := by
  simp [observe, State.isDone, State.outcome, hd, hst, ParseOutcome.ofCode]

theorem observe_of_romTooShort (hd : s.seq = Seq.done) (hst : s.status = 0b01) : observe s = .error .romTooShort := by
  simp [observe, State.isDone, State.outcome, hd, hst, ParseOutcome.ofCode]

theorem observe_of_badChecksum (hd : s.seq = Seq.done) (hst : s.status = 0b10) : observe s = .error .badChecksum := by
  simp [observe, State.isDone, State.outcome, hd, hst, ParseOutcome.ofCode]

theorem observe_of_truncated (hd : s.seq = Seq.done) (hst : s.status = 0b11) : observe s = .fault := by
  simp [observe, State.isDone, State.outcome, hd, hst, ParseOutcome.ofCode]

theorem twoBits_cases (c : BitVec 2) : c = 0b00 ∨ c = 0b01 ∨ c = 0b10 ∨ c = 0b11 := by
  revert c; decide

/-- Only `OK` in DONE shows a record (R34). -/
theorem hdrValid_of_observe_record {r : Record} (h : observe s = .record r) : s.hdrValid = true := by
  rw [State.hdrValid_iff]
  by_cases hd : s.seq = Seq.done
  · rcases twoBits_cases s.status with hst | hst | hst | hst
    · exact ⟨hd, hst⟩
    · rw [observe_of_romTooShort hd hst] at h; cases h
    · rw [observe_of_badChecksum hd hst] at h; cases h
    · rw [observe_of_truncated hd hst] at h; cases h
  · rw [observe_of_seq_ne hd] at h; cases h

theorem observe_of_hdrValid (h : s.hdrValid = true) : observe s = .record s.record :=
  have ⟨hd, hst⟩ := State.hdrValid_iff.1 h
  observe_of_ok hd hst

/-- Settles O35, by the value of `SEQ` and of `STATUS`. -/
theorem observationFollowsSeqAndStatus : Obligations.ObservationFollowsSeqAndStatus := fun _ =>
  ⟨observe_of_seq_ne, observe_of_ok, observe_of_romTooShort, observe_of_badChecksum, observe_of_truncated,
    fun h => ⟨_, observe_of_hdrValid h⟩, fun ⟨_, h⟩ => hdrValid_of_observe_record h⟩

/-! ## A read of the outputs -/

/-- A step whose event is the host's. -/
theorem step_of_host {h : HostStep} {p : List Event} (hp : s.pending = .host h :: p) :
    step s = hostStep h { s with pending := p } := by
  simp only [step, nextEvent, hp, List.headD_cons, List.tail_cons, runEvent]

/-- A host step whose writes are allowed goes on to sample `rst` and `cmd` (R64). -/
theorem hostStep_of_allowed {h : HostStep} (hw : h.writes = [] ∨ mayWrite h s = true) (hwf : h.wellFormed = true) :
    hostStep h s = observeOutputs h s (sampleCommand h (driveInputs h s)) := by
  unfold hostStep
  rw [if_neg, if_neg]
  · simp [hwf]
  · rcases hw with hw | hw <;> simp [hw]

/-- A reset, a `NOP` and a `PARSE` are all sampled in every state. -/
theorem sampleCommand_completes {h : HostStep} (hc : h.rst = true ∨ h.cmd = 0b00 ∨ h.cmd = 0b01) (s : State) :
    ∃ t, sampleCommand h s = .next t := by
  unfold sampleCommand
  by_cases hr : h.rst = true
  · exact ⟨_, if_pos hr⟩
  · rw [if_neg hr]
    rcases hc with hc | hc | hc
    · exact absurd hc hr
    · exact ⟨s, by rw [hc]; rfl⟩
    · exact ⟨_, by rw [hc]; exact exec_parse_eq s⟩

/-- The read sees the state its step begins with, whatever the step's command then does (log entry 15). -/
theorem observeOutputs_of_fault {h : HostStep} (hr : h.read = true) (ho : observe s = .fault) (t : State) :
    observeOutputs h s (.next t) = .fault .truncatedObserved := by
  simp [observeOutputs, hr, ho]

/-- Settles O60: the command is sampled to some next state, and the read then faults. -/
theorem readingATruncatedOutcomeFaults : Obligations.ReadingATruncatedOutcomeFaults := by
  intro s h p hp hr hd hst hw hwf hc
  obtain ⟨t, ht⟩ := sampleCommand_completes hc (driveInputs h { s with pending := p })
  rw [step_of_host hp, hostStep_of_allowed (s := { s with pending := p }) hw hwf, ht]
  exact observeOutputs_of_fault hr (observe_of_truncated hd hst) t

/-! ## DONE and reset -/

/-- In DONE, without a reset and an accepted PARSE, a step moves the host's wires, its buffer and the events alone. -/
theorem step_in_done (hseq : s.seq = Seq.done) (hn : step s = .next t)
    (hquiet : ∀ h, nextEvent s = .host h → h.rst = false ∧ h.cmd ≠ 0b01) :
    t = { s with len := t.len, buf := t.buf, pending := s.pending.tail } := by
  rcases step_next hn with ⟨-, hexec⟩ | ⟨h, he, -, -, hcmd⟩ | ⟨-, rfl⟩
  · have hdone : decodeSeq s.seq = .done := by rw [hseq]; rfl
    rw [hdone] at hexec
    cases hexec
    rfl
  · obtain ⟨hrst, hparse⟩ := hquiet h he
    rcases sampleCommand_next hcmd with ⟨hr, -⟩ | ⟨-, -, rfl⟩ | ⟨-, hp, -⟩ | ⟨-, hp, -⟩
    · exact absurd hr (by simp [hrst])
    · rfl
    · exact absurd hp hparse
    · exact absurd hp hparse
  · rw [if_pos ((State.isDone_iff s).2 hseq)]

/-- Settles O43: the observation reads registers only, and none changes. -/
theorem theRecordIsStableInDone : Obligations.TheRecordIsStableInDone := by
  intro s t hseq hn hquiet
  have hframe := step_in_done hseq hn hquiet
  exact ⟨hframe, (congrArg observe hframe).trans rfl⟩

/-- Settles O32: the table's row of each register, read off `State.reset`. -/
theorem resetStateHoldsTheTablesValues : Obligations.ResetStateHoldsTheTablesValues := by
  unfold Obligations.ResetStateHoldsTheTablesValues
  decide

end Sys2Proof.Machine
end

section
/-! PROOF. The ROM buffer: equality of canonical buffers, big-endian fields, reads past the length, and what an
instruction can see of the buffer (R36, R37, R39, R100, R122). -/

namespace Sys2Proof.Machine

variable {s : State} {m : Memory}

/-! ## Canonical buffers (R36, log entry 1) -/

/-- A canonical buffer lists every index that reads as something other than `Memory.unlisted`, with its byte, and no more. -/
theorem mem_iff_readByte (hm : Memory.wf m) (c : Host.Cell) :
    c ∈ m ↔ readByte m c.1 = c.2 ∧ c.2 ≠ Memory.unlisted := by
  induction m with
  | nil => simpa [readByte] using fun h : Memory.unlisted = c.2 => h.symm
  | cons d m ih =>
    have hrest : ∀ e ∈ m, e.1 ≠ d.1 := fun e he => (List.rel_of_pairwise_cons hm.1 he).ne'
    have hd : d.2 ≠ Memory.unlisted := (hm.2 d List.mem_cons_self).2
    rw [List.mem_cons, ih (wf_tail hm), readByte]
    by_cases hidx : d.1 = c.1
    · rw [if_pos hidx, ← hidx, readByte_eq_unlisted hrest]
      constructor
      · rintro (rfl | ⟨hread, hne⟩)
        · exact ⟨rfl, hd⟩
        · exact absurd hread.symm hne
      · exact fun ⟨hbyte, _⟩ => .inl (Prod.ext hidx.symm hbyte.symm)
    · rw [if_neg hidx]
      exact or_iff_right fun h => hidx (h ▸ rfl)

/-- Settles O31: the two buffers list the same cells, and both list them in the order of their indices. -/
theorem equalBuffersAreEqualData : Obligations.EqualBuffersAreEqualData := by
  intro m₁ m₂ h₁ h₂ hread
  have hmem (c : Host.Cell) : c ∈ m₁ ↔ c ∈ m₂ := by rw [mem_iff_readByte h₁, mem_iff_readByte h₂, hread]
  exact List.Pairwise.eq_of_mem_iff (r := InvImage (· < ·) Prod.fst) h₁.1 h₂.1 hmem

/-! ## Big-endian fields, and reads past the length (R37, R39) -/

/-- Settles O25: the law of `BE16`, and EXT_CKSUM's closed form past its length check. -/
theorem multiByteFieldsAreBigEndian : Obligations.MultiByteFieldsAreBigEndian := by
  refine ⟨be16_toNat, fun s t hlen hn => ?_⟩
  rw [exec_extCksum_eq, if_pos hlen] at hn
  cases hn
  exact be16_toNat _ _

/-- Settles O22: in each closed form the branch of a read outside the buffer is the raise of `Truncated`. -/
theorem readsPastTheLengthRaiseTruncated : Obligations.ReadsPastTheLengthRaiseTruncated := by
  refine fun s => ⟨fun h => ?_, fun h => ?_, fun h => ?_, fun h => ?_, fun hlt hlo hhi => ?_⟩
  · rw [exec_extEntry_eq, if_neg (Nat.not_lt.2 h)]; rfl
  · rw [exec_extTitle_eq, if_neg (Nat.not_lt.2 h)]; rfl
  · rw [exec_extCart_eq, if_neg (Nat.not_lt.2 h)]; rfl
  · rw [exec_extDest_eq, if_neg (Nat.not_lt.2 h)]; rfl
  · have hne : s.idx ≠ s.lenR := fun h => hlt.ne' (congrArg BitVec.toNat h)
    have hskip : ¬ skipped s.idx.toNat = true := by simp [skipped_iff, hlo, hhi]
    rw [exec_sum_eq, if_neg hne, if_neg hskip, if_neg hlt.not_gt]
    rfl

/-! ## What an instruction sees of the buffer (R37, R100, R122) -/

/-- The state with another buffer. -/
def State.withBuf (m : Memory) (s : State) : State := { s with buf := m }

/-- The same answer, a next state with another buffer. -/
def outcomeWithBuf (m : Memory) : Host.Outcome State Fault Refusal → Host.Outcome State Fault Refusal
  | .next t => .next (t.withBuf m)
  | .fault f => .fault f
  | .refused r => .refused r

/-- Buffers that agree on the driven indices agree on an instruction's operands, when these lie inside the buffer. -/
theorem operands_agree {i : Instr} {l : List Nat} (hbus : ∀ a ∈ busReads i s, readByte m a = readByte s.buf a)
    (hl : operandIndices i s = l) (hin : ∀ a ∈ l, a < s.lenR.toNat) : ∀ a ∈ l, readByte m a = readByte s.buf a := by
  subst hl
  exact busReads_of_inside hin ▸ hbus

/-- Two branches that each carry over to another buffer carry over together. -/
theorem ite_withBuf {c : Prop} [Decidable c] {u v u' v' : State} (hu : c → u.withBuf m = u')
    (hv : ¬ c → v.withBuf m = v') : (if c then u else v).withBuf m = if c then u' else v' := by
  split
  · next hc => exact hu hc
  · next hc => exact hv hc

/-- Closed forms that carry over to another buffer give answers that do. -/
theorem exec_withBuf_of_next {i : Instr} {u u' : State} (hs : exec i s = .next u)
    (hm : exec i (s.withBuf m) = .next u') (hu : u.withBuf m = u') :
    exec i (s.withBuf m) = outcomeWithBuf m (exec i s) := by
  rw [hs, hm, ← hu]
  rfl

/-- An instruction answers alike with two buffers that agree on the indices it drives. -/
theorem exec_withBuf {i : Instr} (hbus : ∀ a ∈ busReads i s, readByte m a = readByte s.buf a) :
    exec i (s.withBuf m) = outcomeWithBuf m (exec i s) := by
  cases i with
  | nop | idle | done | reservedCmd10 | reservedCmd11 | reservedSeqB | reservedSeqCF | extSizes => rfl
  | parse => exact exec_withBuf_of_next (exec_parse_eq s) (exec_parse_eq _) (ite_withBuf (fun _ => rfl) fun _ => rfl)
  | lenchk => exact exec_withBuf_of_next (exec_lenchk_eq s) (exec_lenchk_eq _) (ite_withBuf (fun _ => rfl) fun _ => rfl)
  | compare =>
    exact exec_withBuf_of_next (exec_compare_eq s) (exec_compare_eq _) (ite_withBuf (fun _ => rfl) fun _ => rfl)
  | extEntry =>
    refine exec_withBuf_of_next (exec_extEntry_eq s) (exec_extEntry_eq _) (ite_withBuf (fun hlen => ?_) fun _ => rfl)
    have hbytes := operands_agree hbus operandIndices_extEntry (by simp; omega)
    simp only [List.forall_mem_cons] at hbytes
    obtain ⟨h0, h1, h2, h3, -⟩ := hbytes
    simp only [State.withBuf, h0, h1, h2, h3]
  | extTitle =>
    refine exec_withBuf_of_next (exec_extTitle_eq s) (exec_extTitle_eq _) (ite_withBuf (fun hlen => ?_) fun _ => rfl)
    have hbytes := operands_agree hbus operandIndices_extTitle (by simp; omega)
    have hbyte (k : Nat) (hk : k < 15) : readByte m (0x134 + k) = readByte s.buf (0x134 + k) :=
      hbytes _ (by simp; omega)
    simp +contextual only [State.withBuf, hbyte]
  | extCart =>
    refine exec_withBuf_of_next (exec_extCart_eq s) (exec_extCart_eq _) (ite_withBuf (fun hlen => ?_) fun _ => rfl)
    have hbyte := operands_agree hbus operandIndices_extCart (by simpa using hlen) 0x147 (by simp)
    simp only [State.withBuf, hbyte]
  | extDest =>
    refine exec_withBuf_of_next (exec_extDest_eq s) (exec_extDest_eq _) (ite_withBuf (fun hlen => ?_) fun _ => rfl)
    have hbyte := operands_agree hbus operandIndices_extDest (by simpa using hlen) 0x14A (by simp)
    simp only [State.withBuf, hbyte]
  | extCksum =>
    refine exec_withBuf_of_next (exec_extCksum_eq s) (exec_extCksum_eq _) (ite_withBuf (fun hlen => ?_) fun _ => rfl)
    have hidx : operandIndices .extCksum s = [0x14E, 0x14F] := if_neg (Nat.not_le.2 hlen)
    have hbytes := operands_agree hbus hidx (by simp; omega)
    simp only [List.forall_mem_cons] at hbytes
    obtain ⟨hhi, hlo, -⟩ := hbytes
    simp only [State.withBuf, declaredChecksum, hhi, hlo]
  | sum =>
    refine exec_withBuf_of_next (exec_sum_eq s) (exec_sum_eq _) (ite_withBuf (fun _ => rfl) fun hend =>
      ite_withBuf (fun _ => rfl) fun hskip => ite_withBuf (fun hin => ?_) fun _ => rfl)
    have hidx : operandIndices .sum s = [s.idx.toNat] := if_neg (not_or.2 ⟨hend, hskip⟩)
    have hbyte := operands_agree hbus hidx (by simpa using hin) s.idx.toNat (by simp)
    simp only [State.withBuf, hbyte]

/-- Settles O46: changing the buffer before an instruction or after it comes to the same, as `exec_withBuf` says. -/
theorem onlyTheDrivenBytesMatter : Obligations.OnlyTheDrivenBytesMatter := by
  intro i s m hbus
  exact ⟨fun _ hn => (exec_withBuf hbus).trans (congrArg (outcomeWithBuf m) hn),
    fun _ hr => (exec_withBuf hbus).trans (congrArg (outcomeWithBuf m) hr)⟩

end Sys2Proof.Machine
end

section
/-! PROOF. The two encoding spaces: the decoder, the encoder and the rows of the opcode table (R51 to R53, R56). -/

namespace Sys2Proof.Machine

/-- Every code of `CMD2` is the code of the instruction it decodes to (R52). -/
theorem encode_decodeCmd (c : BitVec 2) : encode (decodeCmd c) = .cmd2 c := by
  revert c; decide

/-- Of the codes of `SEQ4` the decoder leaves to the row `RESERVED_SEQ_C_F` just those of that row (R53). -/
theorem decodeSeq_wellFormed (c : BitVec 4) : (decodeSeq c).wellFormed = true := by
  revert c; decide

theorem decodeCmd_wellFormed (c : BitVec 2) : (decodeCmd c).wellFormed = true := by
  revert c; decide

/-- A code of the row `RESERVED_SEQ_C_F` is none of the eleven codes above it in the table (R53). -/
theorem decodeSeq_of_reservedSeqCF {code : BitVec 4} (h : (Instr.reservedSeqCF code).wellFormed = true) :
    decodeSeq code = .reservedSeqCF code := by
  revert code; decide

/-- An instruction without operand is read back from its one code, and `RESERVED_SEQ_C_F` from each of its four. -/
theorem decode_encode {i : Instr} (h : i.wellFormed = true) : decode (encode i) = i := by
  cases i with
  | reservedSeqCF code => exact decodeSeq_of_reservedSeqCF h
  | nop | parse | reservedCmd10 | reservedCmd11 | idle | lenchk | extEntry | extTitle | extCart | extDest | extCksum
  | extSizes | sum | compare | done | reservedSeqB => rfl

/-- Settles O1: `decode_encode` one way, and the other way format by format. -/
theorem decodeAndEncodeAgree : Obligations.DecodeAndEncodeAgree := by
  refine ⟨fun _ => decode_encode, fun w => ?_⟩
  cases w with
  | cmd2 bits => exact ⟨decodeCmd_wellFormed bits, encode_decodeCmd bits⟩
  | seq4 bits => exact ⟨decodeSeq_wellFormed bits, encode_decodeSeq bits⟩

/-- Settles O2: each word is a row of the decoder. -/
theorem tableWordsDecode : Obligations.TableWordsDecode := by
  unfold Obligations.TableWordsDecode
  decide

/-- Settles O3: a finite check of the table, over the four codes of `CMD2` and the sixteen of `SEQ4`. -/
theorem eachCodeFallsInItsOwnRow : Obligations.EachCodeFallsInItsOwnRow := by
  intro w
  cases w with
  | cmd2 bits => revert bits; decide
  | seq4 bits => revert bits; decide

/-- Settles O7: the two arms refuse before they look at the state. -/
theorem reservedMicroOpsAreRefused : Obligations.ReservedMicroOpsAreRefused := fun _ _ => ⟨rfl, rfl⟩

end Sys2Proof.Machine
end

section
/-! PROOF. LOADBUF: the buffer after a run of bytes is written to it, and the host step that writes them (R36, R61). -/

namespace Sys2Proof.Machine

variable {s : State} {m : Memory} {i : Nat} {bs : List Byte}

/-- LOADBUF writes from its index on, one index for each byte. -/
theorem index_of_mem_loadCells {c : Nat × Byte} (h : c ∈ loadCells i bs) : i ≤ c.1 ∧ c.1 < i + bs.length := by
  induction bs generalizing i with
  | nil => cases h
  | cons b bs ih =>
    rw [List.length_cons]
    rcases List.mem_cons.1 h with rfl | hrest
    · exact ⟨le_rfl, by omega⟩
    · have := ih hrest
      omega

theorem loadCells_inSpace (hin : i + bs.length ≤ Config.indexSpace) : ∀ c ∈ loadCells i bs, c.1 < Config.indexSpace :=
  fun _ hc => lt_of_lt_of_le (index_of_mem_loadCells hc).2 hin

/-- Byte `k` of the list lands at `i + k`: the first is not written again by the rest, which lands from `i + 1` on. -/
theorem readByte_loadCells (hm : Memory.wf m) (hin : i + bs.length ≤ Config.indexSpace) {k : Nat} (hk : k < bs.length) :
    readByte (writeCells m (loadCells i bs)) (i + k) = bs[k] := by
  induction bs generalizing m i k with
  | nil => cases hk
  | cons b bs ih =>
    rw [List.length_cons] at hin hk
    have hrest : i + 1 + bs.length ≤ Config.indexSpace := by omega
    have hwf : Memory.wf (writeByte m i b) := wf_writeByte b (by omega) hm
    rw [loadCells, writeCells]
    cases k with
    | zero =>
      have hlater : ∀ c ∈ loadCells (i + 1) bs, c.1 ≠ i := fun c hc => by
        have := index_of_mem_loadCells hc
        omega
      calc readByte (writeCells (writeByte m i b) (loadCells (i + 1) bs)) i
          = readByte (writeByte m i b) i := readByte_writeCells_of_ne (loadCells_inSpace hrest) hlater hwf
        _ = b := by rw [readByte_writeByte i b i hm, if_pos rfl]
    | succ k =>
      rw [List.getElem_cons_succ, ← ih hwf hrest (by omega), Nat.add_right_comm, Nat.add_assoc]

/-- An index outside those LOADBUF writes reads as before. -/
theorem readByte_loadCells_outside (hm : Memory.wf m) (hin : i + bs.length ≤ Config.indexSpace) {a : Nat}
    (ha : a < i ∨ i + bs.length ≤ a) : readByte (writeCells m (loadCells i bs)) a = readByte m a := by
  refine readByte_writeCells_of_ne (loadCells_inSpace hin) (fun c hc => ?_) hm
  have := index_of_mem_loadCells hc
  omega

/-- While no parse runs, LOADBUF writes the buffer and nothing else: its `cmd` is `NOP`, and it reads no port (R61, R64). -/
theorem hostStep_loadBuf (hb : s.busy = false) (hin : i + bs.length ≤ Config.indexSpace) :
    hostStep (.loadBuf i bs) s = .next { s with buf := writeCells s.buf (loadCells i bs) } := by
  have hmay : mayWrite (.loadBuf i bs) s = true := by simp [mayWrite, accepts, HostStep.loadBuf, hb]
  have hwf : (HostStep.loadBuf i bs).wellFormed = true := by
    simpa [HostStep.wellFormed, HostStep.loadBuf] using loadCells_inSpace hin
  rw [hostStep_of_allowed (.inr hmay) hwf]
  rfl

/-- Settles O30: the new buffer is the old one with LOADBUF's cells written. -/
theorem loadBufPlacesItsBytes : Obligations.LoadBufPlacesItsBytes := by
  intro s i bs p hm hb hin hp
  refine ⟨writeCells s.buf (loadCells i bs), ?_, wf_writeCells (loadCells_inSpace hin) hm,
    fun k hk => readByte_loadCells hm hin hk, fun a ha => readByte_loadCells_outside hm hin ha⟩
  rw [step_of_host hp]
  exact hostStep_loadBuf (s := { s with pending := p }) hb hin

end Sys2Proof.Machine
end

section
/-! PROOF. What a sequencer step does to the control of a parse, and how many are left (R53, R62, R75, R93, R99, R101). -/

namespace Sys2Proof.Machine

variable {s t : State}

/-! ## A parse that has begun -/

/-- What the control of a parse rests on once it has begun, the field registers and the form of the buffer left out: part
of `Inv`, and what a fresh parse meets too. -/
structure ParseProgress (s : State) : Prop where
  /-- A PARSE has begun and no reset has come (R66, R117). -/
  begun : 1 ≤ s.seq.toNat
  seq_legal : s.seq.toNat ≤ 0xA
  idx_le : s.idx.toNat ≤ s.lenR.toNat
  len_passed : 2 ≤ s.seq.toNat → s.seq.toNat ≤ 9 → 0x14F ≤ s.lenR.toNat
  len_complete : 7 ≤ s.seq.toNat → s.seq.toNat ≤ 9 → 0x150 ≤ s.lenR.toNat
  idx_clear : s.seq.toNat < 8 → s.idx = 0
  outcome_cause : s.isDone = true → OutcomeCause s

theorem State.busy_iff_toNat : s.busy = true ↔ s.seq.toNat ≠ 0 ∧ s.seq.toNat ≠ 0xA := by
  simp [State.busy, ← BitVec.toNat_inj]

theorem Inv.parseProgress (hs : Inv s) (hb : s.busy = true) : ParseProgress s :=
  { hs with
    begun := Nat.one_le_iff_ne_zero.2 (State.busy_iff_toNat.1 hb).1
    idx_clear := fun h => (hs.loop_clear h).1 }

theorem FreshParse.parseProgress (hs : FreshParse s) : ParseProgress s where
  begun := hs.seq ▸ by decide
  seq_legal := hs.seq ▸ by decide
  idx_le := by simp [hs.idx]
  len_passed h _ := absurd (hs.seq ▸ h : 2 ≤ Seq.lenchk.toNat) (by decide)
  len_complete h _ := absurd (hs.seq ▸ h : 7 ≤ Seq.lenchk.toNat) (by decide)
  idx_clear _ := hs.idx
  outcome_cause := outcomeCause_of_seq_ne (hs.seq ▸ by decide)

theorem FreshParse.busy (hs : FreshParse s) : s.busy = true := by
  simp [State.busy, hs.seq]

/-- The events to come are no part of a parse. -/
theorem ParseProgress.withPending (hs : ParseProgress s) (p : List Event) : ParseProgress { s with pending := p } :=
  { hs with }

/-- A parse that has begun is over or busy. -/
theorem ParseProgress.isDone_of_not_busy (hs : ParseProgress s) (hb : s.busy ≠ true) : s.isDone = true := by
  have hcode := mt State.busy_iff_toNat.2 hb
  have hbegun := hs.begun
  exact (State.isDone_iff s).2 (BitVec.eq_of_toNat_eq (by show s.seq.toNat = 0xA; omega))

theorem State.not_isDone_of_busy (hb : s.busy = true) : s.isDone = false :=
  Bool.eq_false_iff.2 fun hd => ((State.busy_iff s).1 hb).2 ((State.isDone_iff s).1 hd)

/-! ## The sequencer's moves -/

/-- The micro-operation that ends a parse with an outcome (R53, R101). -/
def ParseOutcome.raisedAt : ParseOutcome → BitVec 4
  | .romTooShort => Seq.lenchk
  | .truncated => Seq.extCksum
  | .ok | .badChecksum => Seq.compare

/-- Everything a sequencer step can do to the control registers of a busy parse (R53): hand over to the next
micro-operation, take one more turn of SUM's loop, or end the parse with an outcome whose cause holds. -/
inductive SequencerMove (s t : State) : Prop
  | advance (before : s.seq.toNat ≤ 8) (len_passed : 0x14F ≤ s.lenR.toNat)
      (len_complete : 6 ≤ s.seq.toNat → 0x150 ≤ s.lenR.toNat) (loop_over : s.seq = Seq.sum → s.idx = s.lenR)
      (seq : t.seq = s.seq + 1) (idx : t.idx = s.idx) (status : t.status = s.status)
  | loop (at_sum : s.seq = Seq.sum) (loop_goes_on : s.idx.toNat < s.lenR.toNat)
      (seq : t.seq = s.seq) (idx : t.idx = s.idx + 1) (status : t.status = s.status)
  | outcome (e : ParseOutcome) (raised_at : s.seq = e.raisedAt) (cause : OutcomeCause (s.raise e)) (raise : t = s.raise e)

/-- EXT_ENTRY to EXT_DEST hand over in every state of a parse: their reads lie below 0x14F (R75, R77). -/
theorem ParseProgress.field_move (hs : ParseProgress s) {i : Instr} {inside : Prop} [Decidable inside] {u : State}
    (hexec : exec i s = .next (if inside then u else s.raise .truncated)) (hin : 0x14F ≤ s.lenR.toNat → inside)
    (hseq : 2 ≤ s.seq.toNat ∧ s.seq.toNat ≤ 5) (hnext : u.seq = s.seq + 1) (hidx : u.idx = s.idx)
    (hstatus : u.status = s.status) : ∃ t, exec i s = .next t ∧ SequencerMove s t := by
  have hlen := hs.len_passed hseq.1 (by omega)
  rw [if_pos (hin hlen)] at hexec
  exact ⟨u, hexec, .advance (by omega) hlen (by omega)
    (fun h => absurd (h ▸ hseq.2 : Seq.sum.toNat ≤ 5) (by decide)) hnext hidx hstatus⟩

theorem lenchk_move (hseq : s.seq = Seq.lenchk) : ∃ t, exec .lenchk s = .next t ∧ SequencerMove s t := by
  refine ⟨_, exec_lenchk_eq s, ?_⟩
  split_ifs with hshort
  · exact .outcome .romTooShort hseq hshort rfl
  · exact .advance (hseq ▸ by decide) (Nat.not_lt.1 hshort) (fun h => absurd (hseq ▸ h) (by decide))
      (fun h => absurd (hseq.symm.trans h) (by decide)) (hseq ▸ rfl) rfl rfl

theorem ParseProgress.extCksum_move (hs : ParseProgress s) (hseq : s.seq = Seq.extCksum) :
    ∃ t, exec .extCksum s = .next t ∧ SequencerMove s t := by
  have hlen := hs.len_passed (hseq ▸ by decide) (hseq ▸ by decide)
  refine ⟨_, exec_extCksum_eq s, ?_⟩
  split_ifs with hfull
  · exact .advance (hseq ▸ by decide) hlen (fun _ => hfull) (fun h => absurd (hseq.symm.trans h) (by decide))
      (hseq ▸ rfl) rfl rfl
  · exact .outcome .truncated hseq (Nat.le_antisymm (Nat.not_lt.1 hfull) hlen) rfl

theorem ParseProgress.extSizes_move (hs : ParseProgress s) (hseq : s.seq = Seq.extSizes) :
    ∃ t, exec .extSizes s = .next t ∧ SequencerMove s t := by
  have hfull := hs.len_complete (hseq ▸ by decide) (hseq ▸ by decide)
  exact ⟨_, rfl, .advance (hseq ▸ by decide) (by omega) (fun _ => hfull)
    (fun h => absurd (hseq.symm.trans h) (by decide)) (hseq ▸ rfl) rfl rfl⟩

theorem ParseProgress.sum_move (hs : ParseProgress s) (hseq : s.seq = Seq.sum) :
    ∃ t, exec .sum s = .next t ∧ SequencerMove s t := by
  refine ⟨_, exec_sum_eq s, ?_⟩
  have hlt (hgo : s.idx ≠ s.lenR) : s.idx.toNat < s.lenR.toNat :=
    lt_of_le_of_ne hs.idx_le fun h => hgo (BitVec.eq_of_toNat_eq h)
  have hfull := hs.len_complete (hseq ▸ by decide) (hseq ▸ by decide)
  split_ifs with hend hskip hin
  · exact .advance (hseq ▸ by decide) (by omega) (fun _ => hfull) (fun _ => hend) (by rw [hseq]; rfl) rfl rfl
  · exact .loop hseq (hlt hend) rfl rfl rfl
  · exact .loop hseq hin rfl rfl rfl
  · exact absurd (hlt hend) hin

theorem ParseProgress.compare_move (hs : ParseProgress s) (hseq : s.seq = Seq.compare) :
    ∃ t, exec .compare s = .next t ∧ SequencerMove s t := by
  have hfull := hs.len_complete (hseq ▸ by decide) (hseq ▸ by decide)
  refine ⟨_, exec_compare_eq s, ?_⟩
  split_ifs with heq
  · exact .outcome .ok hseq ⟨hfull, heq⟩ rfl
  · exact .outcome .badChecksum hseq ⟨hfull, heq⟩ rfl

/-- The micro-operations of a running parse (R53). -/
theorem ParseProgress.seq_cases (hs : ParseProgress s) (hb : s.busy = true) :
    s.seq = Seq.lenchk ∨ s.seq = Seq.extEntry ∨ s.seq = Seq.extTitle ∨ s.seq = Seq.extCart ∨ s.seq = Seq.extDest ∨
      s.seq = Seq.extCksum ∨ s.seq = Seq.extSizes ∨ s.seq = Seq.sum ∨ s.seq = Seq.compare := by
  have hcode := State.busy_iff_toNat.1 hb
  have hlegal := hs.seq_legal
  generalize s.seq = c at hcode hlegal ⊢
  revert c
  decide

/-- While a parse runs, the micro-operation in `SEQ` makes one of the sequencer's moves. -/
theorem ParseProgress.exec_move (hs : ParseProgress s) (hb : s.busy = true) :
    ∃ t, exec (decodeSeq s.seq) s = .next t ∧ SequencerMove s t := by
  rcases hs.seq_cases hb with hseq | hseq | hseq | hseq | hseq | hseq | hseq | hseq | hseq <;> rw [hseq]
  · exact lenchk_move hseq
  · exact hs.field_move (exec_extEntry_eq s) (by omega) (hseq ▸ by decide) (hseq ▸ rfl) rfl rfl
  · exact hs.field_move (exec_extTitle_eq s) (by omega) (hseq ▸ by decide) (hseq ▸ rfl) rfl rfl
  · exact hs.field_move (exec_extCart_eq s) (by omega) (hseq ▸ by decide) (hseq ▸ rfl) rfl rfl
  · exact hs.field_move (exec_extDest_eq s) (by omega) (hseq ▸ by decide) (hseq ▸ rfl) rfl rfl
  · exact hs.extCksum_move hseq
  · exact hs.extSizes_move hseq
  · exact hs.sum_move hseq
  · exact hs.compare_move hseq

/-- Settles O41: the invariant clears `STATUS` while the parse runs, and of the outcomes `OK` alone leaves it clear, from
COMPARE on to DONE, the code after it. -/
theorem sequencerFollowsTheFixedOrder : Obligations.SequencerFollowsTheFixedOrder := by
  intro s hs hb hp
  obtain ⟨t, hexec, hmove⟩ := (hs.parseProgress hb).exec_move hb
  refine ⟨t, (step_of_pending_nil hp).trans hexec, ?_⟩
  cases hmove with
  | advance _ _ _ _ hseq _ hstatus => exact .inl ⟨hseq, hstatus.trans (hs.status_clear (State.not_isDone_of_busy hb))⟩
  | loop hsum _ hseq => exact .inr (.inl ⟨hsum, hseq.trans hsum⟩)
  | outcome e hat _ hraise =>
    subst hraise
    cases e with
    | ok => exact .inl ⟨by rw [hat]; rfl, rfl⟩
    | romTooShort | badChecksum | truncated => exact .inr (.inr ⟨rfl, by simp [ParseOutcome.code]⟩)

/-! ## The steps left -/

/-- A micro-operation leaves the length register, the buffer and the events to come as they are (R13, R19, R38). -/
theorem exec_micro_frame (hexec : exec (decodeSeq s.seq) s = .next t) :
    t.lenR = s.lenR ∧ t.buf = s.buf ∧ t.pending = s.pending := by
  obtain ⟨-, -, hlenR, -, -, -, -, -, -, -, -, hpending, -⟩ := eachRegisterHasItsWriters _ s t hexec
  have hbuf : exec (decodeSeq s.seq) s = outcomeWithBuf s.buf (exec (decodeSeq s.seq) s) :=
    exec_withBuf (m := s.buf) fun _ _ => rfl
  rw [hexec] at hbuf
  have hkept : t.buf = (t.withBuf s.buf).buf := congrArg State.buf (Host.Outcome.next.inj hbuf)
  have hparse : decodeSeq s.seq ≠ .parse := by
    generalize s.seq = c
    revert c
    decide
  exact ⟨hlenR hparse, hkept, hpending⟩

theorem toNat_succ_of_le {c : BitVec 4} (h : c.toNat ≤ 8) : (c + 1).toNat = c.toNat + 1 :=
  BitVec.toNat_add_of_lt (show c.toNat + 1 < 16 by omega)

theorem idx_succ_toNat (h : s.idx.toNat < s.lenR.toNat) : (s.idx + 1).toNat = s.idx.toNat + 1 :=
  BitVec.toNat_add_of_lt (show s.idx.toNat + 1 < 2 ^ 32 from lt_of_le_of_lt h s.lenR.isLt)

/-- An outcome whose cause holds ends a parse that has begun (R107). -/
theorem ParseProgress.raise (hs : ParseProgress s) {e : ParseOutcome} (hcause : OutcomeCause (s.raise e)) :
    ParseProgress (s.raise e) :=
  have hlast : ¬ Seq.done.toNat ≤ 9 := by decide
  { hs with
    begun := show 1 ≤ Seq.done.toNat by decide
    seq_legal := Nat.le_refl Seq.done.toNat
    len_passed := fun _ h => absurd h hlast
    len_complete := fun _ h => absurd h hlast
    idx_clear := fun h => absurd (Nat.le_succ_of_le (Nat.le_of_lt h)) hlast
    outcome_cause := fun _ => hcause }

/-- The sequencer's moves keep a parse in progress. -/
theorem ParseProgress.of_move (hs : ParseProgress s) (hlenR : t.lenR = s.lenR) (hmove : SequencerMove s t) :
    ParseProgress t := by
  have hle := hs.idx_le
  cases hmove with
  | outcome e _ hcause hraise => exact hraise ▸ hs.raise hcause
  | loop hsum hmore hseq hidx _ =>
    have hsum' : t.seq = Seq.sum := hseq.trans hsum
    have hfull := hs.len_complete (hsum ▸ by decide) (hsum ▸ by decide)
    exact {
      begun := hsum' ▸ by decide
      seq_legal := hsum' ▸ by decide
      idx_le := by rw [hidx, hlenR, idx_succ_toNat hmore]; exact hmore
      len_passed := fun _ _ => by rw [hlenR]; omega
      len_complete := fun _ _ => by rw [hlenR]; exact hfull
      idx_clear := fun h => absurd (hsum' ▸ h : Seq.sum.toNat < 8) (by decide)
      outcome_cause := outcomeCause_of_seq_ne (hsum' ▸ by decide) }
  | advance hbefore hlen hfull _ hseq hidx _ =>
    have hcode : t.seq.toNat = s.seq.toNat + 1 := by rw [hseq, toNat_succ_of_le hbefore]
    exact {
      begun := by omega
      seq_legal := by omega
      idx_le := by rw [hidx, hlenR]; exact hle
      len_passed := fun _ _ => by rw [hlenR]; exact hlen
      len_complete := fun _ _ => by rw [hlenR]; exact hfull (by omega)
      idx_clear := fun _ => hidx.trans (hs.idx_clear (by omega))
      outcome_cause := outcomeCause_of_seq_ne fun h => by
        rw [h] at hcode
        exact absurd hcode (by show ¬ 0xA = _; omega) }

/-- The cases of `stepsLeft` while a parse runs. -/
theorem stepsLeft_of_busy (hb : s.busy = true) :
    stepsLeft s = if s.seq.toNat < 8 then stepCount s.lenR.toNat - (s.seq.toNat - 1)
      else if s.seq.toNat = 8 then s.lenR.toNat - s.idx.toNat + 2 else 1 := by
  rw [stepsLeft, if_neg (by simp [hb])]

/-- The micro-operation that ends a parse is its last (R99). -/
theorem stepsLeft_of_outcome {e : ParseOutcome} (hb : s.busy = true) (hat : s.seq = e.raisedAt)
    (hcause : OutcomeCause (s.raise e)) : stepsLeft s = 1 := by
  rw [stepsLeft_of_busy hb, hat]
  cases e with
  | ok | badChecksum => rfl
  | romTooShort =>
    have hlen : s.lenR.toNat < 0x14F := hcause
    simp [ParseOutcome.raisedAt, stepCount, hlen]
  | truncated =>
    have hlen : s.lenR.toNat = 0x14F := hcause
    simp [ParseOutcome.raisedAt, stepCount, hlen]

/-- Past the length check, the whole parse takes `LEN_R` + 9 steps, or 6 when it ends in EXT_CKSUM (R99). -/
theorem stepCount_of_passed {n : Nat} (h : 0x14F ≤ n) : stepCount n = if n = 0x14F then 6 else n + 9 :=
  if_neg (Nat.not_lt.2 h)

/-- Each move is one of the steps left. -/
theorem ParseProgress.stepsLeft_of_move (hs : ParseProgress s) (hb : s.busy = true) (hlenR : t.lenR = s.lenR)
    (hmove : SequencerMove s t) : stepsLeft s = stepsLeft t + 1 := by
  have hbegun := hs.begun
  cases hmove with
  | outcome e hat hcause hraise =>
    subst hraise
    rw [stepsLeft_of_outcome hb hat hcause, stepsLeft_of_not_busy rfl]
  | loop hsum hmore hseq hidx _ =>
    have hsum' : t.seq = Seq.sum := hseq.trans hsum
    rw [stepsLeft_of_busy hb, stepsLeft_of_busy (by rw [State.busy, hsum']; rfl), hsum, hsum', hidx, hlenR,
      idx_succ_toNat hmore]
    show _ - _ + 2 = _ - _ + 2 + 1
    omega
  | advance hbefore hlen hfull hend hseq hidx _ =>
    have hcode : t.seq.toNat = s.seq.toNat + 1 := by rw [hseq, toNat_succ_of_le hbefore]
    have hidx0 (h : s.seq.toNat = 7) : s.idx.toNat = 0 := by rw [hs.idx_clear (by omega)]; rfl
    have hidxL (h : s.seq.toNat = 8) : s.idx.toNat = s.lenR.toNat := by
      rw [hend (BitVec.eq_of_toNat_eq h)]
    rw [stepsLeft_of_busy hb, stepsLeft_of_busy (State.busy_iff_toNat.2 (by omega)), hlenR, hidx, hcode,
      stepCount_of_passed hlen]
    split_ifs <;> omega

end Sys2Proof.Machine
end

section
/-! PROOF. `WAITDONE`: what its steps do, and where it ends (R62, R65, R72, R99, R104; log entry 16). -/

namespace Sys2Proof.Machine

variable {s : State} {p : List Event}

/-! ## The turns of a wait -/

theorem run_one (s : State) : Sys2Proof.core.run 1 s = step s := by
  show Sys2Proof.core.run 1 s = Sys2Proof.core.step s
  cases h : Sys2Proof.core.step s <;> simp only [Host.Core.run, h]

/-- A wait that is over is taken off the list, and nothing else changes. -/
theorem step_wait_over (hp : s.pending = .waitDone :: p) (hd : s.isDone = true) :
    step s = .next { s with pending := p } := by
  rw [step_of_waitDone hp, if_pos hd]

/-- A wait that goes on puts the sequencer's turn before itself, and nothing else changes. -/
theorem step_wait_on (hp : s.pending = .waitDone :: p) (hd : s.isDone = false) :
    step s = .next { s with pending := .sequencer :: .waitDone :: p } := by
  rw [step_of_waitDone hp, hd, if_neg Bool.false_ne_true]

/-- The sequencer's turn in a wait runs the micro-operation in `SEQ`, with the wait next again. -/
theorem step_wait_turn (s : State) (p : List Event) :
    step { s with pending := .sequencer :: .waitDone :: p } =
      exec (decodeSeq s.seq) { s with pending := .waitDone :: p } :=
  step_of_sequencer rfl

/-- A turn in `IDLE` leaves the state as it was (R69). -/
theorem run_wait_idle (hp : s.pending = .waitDone :: p) (hidle : s.seq = Seq.idle) (n : Nat) :
    Sys2Proof.core.run (2 * n) s = .next s := by
  have hd : s.isDone = false := by simp [State.isDone, hidle]
  have hturn : step { s with pending := .sequencer :: .waitDone :: p } = .next s := by
    rw [step_wait_turn, show decodeSeq s.seq = .idle from hidle ▸ rfl, ← hp]
    rfl
  induction n with
  | zero => rfl
  | succ n ih => rw [Nat.mul_succ, run_of_step_next _ (step_wait_on hp hd), run_of_step_next _ hturn, ih]

/-- Settles O58: the step that takes the wait off, the two steps of a turn, and the turns in `IDLE`. -/
theorem waitDoneRepeatsNopUntilDone : Obligations.WaitDoneRepeatsNopUntilDone := by
  intro s p hp
  refine ⟨step_wait_over hp, fun hd => ⟨step_wait_on hp hd, ?_⟩, run_wait_idle hp⟩
  rw [run_of_step_next 1 (step_wait_on hp hd), run_one, step_wait_turn]
  rfl

/-! ## Where a wait ends -/

/-- Steps are left only while a parse runs. -/
theorem busy_of_stepsLeft_pos (h : 0 < stepsLeft s) : s.busy = true := by
  by_contra hn
  rw [stepsLeft_of_not_busy (Bool.eq_false_iff.2 hn)] at h
  cases h

/-- While a parse runs, a turn of the wait takes one of the steps left, and the wait comes next again. -/
theorem ParseProgress.wait_turn (hs : ParseProgress s) (hb : s.busy = true) (hp : s.pending = .waitDone :: p) :
    ∃ t, (∀ n, Sys2Proof.core.run (n + 2) s = Sys2Proof.core.run n t) ∧ ParseProgress t ∧ t.pending = .waitDone :: p ∧
      t.lenR = s.lenR ∧ t.buf = s.buf ∧ stepsLeft s = stepsLeft t + 1 := by
  have hs' := hs.withPending (.waitDone :: p)
  obtain ⟨t, hexec, hmove⟩ := hs'.exec_move hb
  obtain ⟨hlenR, hbuf, hpending⟩ := exec_micro_frame hexec
  refine ⟨t, fun n => ?_, hs'.of_move hlenR hmove, hpending, hlenR, hbuf, hs'.stepsLeft_of_move hb hlenR hmove⟩
  rw [run_of_step_next _ (step_wait_on hp (State.not_isDone_of_busy hb)),
    run_of_step_next _ ((step_wait_turn s p).trans hexec)]

/-- A wait in a parse that has begun ends after a turn for each of the steps left, and the step that takes it off. -/
theorem ParseProgress.run_wait (hs : ParseProgress s) (hp : s.pending = .waitDone :: p) {k : Nat}
    (hk : stepsLeft s = k) : ∃ t, Sys2Proof.core.run (2 * k + 1) s = .next t ∧ ParseProgress t ∧ t.isDone = true ∧
      t.pending = p ∧ t.lenR = s.lenR ∧ t.buf = s.buf := by
  induction k generalizing s with
  | zero =>
    have hd : s.isDone = true := hs.isDone_of_not_busy fun hb => by
      obtain ⟨t, -, -, -, -, -, hleft⟩ := hs.wait_turn hb hp
      omega
    exact ⟨_, (run_one s).trans (step_wait_over hp hd), hs.withPending p, hd, rfl, rfl, rfl⟩
  | succ k ih =>
    have hb : s.busy = true := busy_of_stepsLeft_pos (by omega)
    obtain ⟨t, hrun, ht, hpt, hlenR, hbuf, hleft⟩ := hs.wait_turn hb hp
    obtain ⟨u, hu, hprog, hd, hpu, hlenRu, hbufu⟩ := ih ht hpt (by omega)
    exact ⟨u, (hrun _).trans hu, hprog, hd, hpu, hlenRu.trans hlenR, hbufu.trans hbuf⟩

/-- Before the last of these turns is over, the parse runs. -/
theorem ParseProgress.busy_in_wait (hs : ParseProgress s) (hp : s.pending = .waitDone :: p) {n : Nat}
    (hn : n < 2 * stepsLeft s) : ∃ u, Sys2Proof.core.run n s = .next u ∧ u.busy = true := by
  have hb : s.busy = true := busy_of_stepsLeft_pos (by omega)
  induction n using Nat.twoStepInduction generalizing s with
  | zero => exact ⟨s, rfl, hb⟩
  | one => exact ⟨_, (run_one s).trans (step_wait_on hp (State.not_isDone_of_busy hb)), hb⟩
  | more n ih _ =>
    obtain ⟨t, hrun, ht, hpt, -, -, hleft⟩ := hs.wait_turn hb hp
    rw [hrun]
    exact ih ht hpt (by omega) (busy_of_stepsLeft_pos (by omega))

/-- Settles O59: a busy state of the invariant is a parse that has begun. -/
theorem waitDoneEndsAfterTheStepsLeft : Obligations.WaitDoneEndsAfterTheStepsLeft := by
  refine ⟨fun _ => stepsLeft_of_fresh, fun s p hs hb hp => ?_⟩
  have hprog := hs.parseProgress hb
  obtain ⟨t, hrun, -, hd, hpt, -, hbuf⟩ := hprog.run_wait hp rfl
  exact ⟨⟨t, hrun, hd, hpt, hbuf⟩, fun _ => hprog.busy_in_wait hp⟩

/-! ## What a wait finds -/

theorem observe_raise_eq_fault_iff (s : State) (e : ParseOutcome) : observe (s.raise e) = .fault ↔ e = .truncated := by
  cases e with
  | ok => simp [observe_of_ok (s := s.raise .ok) rfl rfl]
  | romTooShort => simp [observe_of_romTooShort (s := s.raise .romTooShort) rfl rfl]
  | badChecksum => simp [observe_of_badChecksum (s := s.raise .badChecksum) rfl rfl]
  | truncated => simp [observe_of_truncated (s := s.raise .truncated) rfl rfl]

/-- A state in DONE is left by the outcome it holds. -/
theorem State.raise_outcome (hd : s.isDone = true) : s.raise s.outcome = s := by
  have hseq := (State.isDone_iff s).1 hd
  rw [State.raise, State.outcome, ParseOutcome.code_ofCode, ← hseq]

/-- Of the four causes, that of `Truncated` alone leaves the length 0x14F (R101). -/
theorem outcome_truncated_iff {e : ParseOutcome} (hcause : OutcomeCause (s.raise e)) :
    e = .truncated ↔ s.lenR.toNat = 0x14F := by
  cases e with
  | ok | badChecksum =>
    have hfull : 0x150 ≤ s.lenR.toNat := hcause.1
    exact iff_of_false (by simp) (by omega)
  | romTooShort =>
    have hshort : s.lenR.toNat < 0x14F := hcause
    exact iff_of_false (by simp) (by omega)
  | truncated => exact iff_of_true rfl hcause

/-- A parse that is over is observed as a fault at the length 0x14F alone (R34, R104). -/
theorem ParseProgress.fault_iff (hs : ParseProgress s) (hd : s.isDone = true) :
    observe s = .fault ↔ s.lenR.toNat = 0x14F := by
  have hraise := State.raise_outcome hd
  calc observe s = .fault ↔ s.outcome = .truncated := by rw [← observe_raise_eq_fault_iff, hraise]
    _ ↔ s.lenR.toNat = 0x14F := outcome_truncated_iff (by rw [hraise]; exact hs.outcome_cause hd)

/-- A run that ends is safe when its end is not observed as a fault (R104). -/
theorem safeRun_iff_of_run {n : Nat} {t : State} (h : Sys2Proof.core.run n s = .next t) :
    SafeRun n s ↔ observe t ≠ .fault := by
  constructor
  · rintro ⟨u, hu, hsafe⟩
    exact Host.Outcome.next.inj (hu.symm.trans h) ▸ hsafe
  · exact fun hsafe => ⟨t, h, hsafe⟩

/-- Settles O53: a fresh parse has begun, and its wait ends in DONE with an outcome whose cause holds. -/
theorem waitDoneIsSafeButAtLength14F : Obligations.WaitDoneIsSafeButAtLength14F := by
  intro s hs hp
  obtain ⟨t, hrun, hprog, hd, hpt, hlenR, -⟩ := hs.parseProgress.run_wait hp (stepsLeft_of_fresh hs)
  exact ⟨⟨t, hrun, hd, hpt⟩, by rw [safeRun_iff_of_run hrun, Ne, hprog.fault_iff hd, hlenR]⟩

end Sys2Proof.Machine
end

section
/-! PROOF. A host step: what it does when the host may make it, where it stops, and what it leaves
(R28, R36, R38, R61 to R64, R68, R104, R123). -/

namespace Sys2Proof.Machine

variable {s t : State} {h : HostStep} {p : List Event}

/-! ## A host step the host may make -/

/-- A read that meets no fault leaves the step's outcome as it is (R64). -/
theorem observeOutputs_of_not_fault (hr : h.read = true → observe s ≠ .fault)
    (o : Host.Outcome State Fault Refusal) : observeOutputs h s o = o := by
  cases o with
  | next t =>
    refine if_neg fun hfault => ?_
    rw [Bool.and_eq_true, beq_iff_eq] at hfault
    exact hr hfault.1 hfault.2
  | fault | refused => rfl

/-- A step the host may make drives the host's values and has the block sample `rst` and `cmd`, and does no more
(R63, R64). -/
theorem step_of_mayMove (hp : s.pending = .host h :: p) (hmay : HostMayMove h s) :
    step s = sampleCommand h (driveInputs h { s with pending := p }) := by
  rw [step_of_host hp, hostStep_of_allowed (s := { s with pending := p }) hmay.writes hmay.inSpace]
  exact observeOutputs_of_not_fault hmay.read _

/-- Without a reset the block runs the command on `cmd` (R52, R63). -/
theorem sampleCommand_of_not_rst (hrst : h.rst = false) (s : State) :
    sampleCommand h s = exec (decode (.cmd2 h.cmd)) s :=
  if_neg (by simp [hrst])

/-- Settles O4: the sequencer's step by its own law, and the host's by that of a step the host may make. -/
theorem stepRunsTheDecodedInstruction : Obligations.StepRunsTheDecodedInstruction := by
  refine ⟨fun s hp => step_of_sequencer ?_, fun s h p hp hrst hmay => ?_⟩
  · rcases hp with hp | hp
    · rw [nextEvent, hp, List.headD_nil]
    · rw [nextEvent, List.headD_eq_head?_getD, hp, Option.getD_some]
  · rw [step_of_mayMove hp hmay, sampleCommand_of_not_rst hrst]
    rfl

/-- The host may always make a step that writes nothing and meets no fault. -/
theorem hostMayMove_of_noWrites (hw : h.writes = []) (hr : h.read = true → observe s ≠ .fault) : HostMayMove h s where
  writes := .inl hw
  inSpace := by simp [HostStep.wellFormed, hw]
  read := hr

/-- Settles O37: a READ samples `NOP`, with nothing driven, and then meets the fault or changes nothing. -/
theorem readHasNoSideEffect : Obligations.ReadHasNoSideEffect := by
  refine fun s p hp => ⟨fun ho => step_of_mayMove hp (hostMayMove_of_noWrites rfl fun _ => ho), fun ho => ?_⟩
  rw [step_of_host hp]
  exact observeOutputs_of_fault rfl ho { s with pending := p }

/-! ## A host step that stops -/

/-- The host must not write while busy, nor in a step whose PARSE is accepted (R64, R123). -/
theorem mayWrite_eq_false (hno : s.busy = true ∨ (h.rst = false ∧ h.cmd = 0b01)) : mayWrite h s = false := by
  rcases hno with hb | ⟨hrst, hcmd⟩
  · simp [mayWrite, hb]
  · cases hb : s.busy <;> simp [mayWrite, accepts, hb, hrst, hcmd]

/-- A write the host must not make is refused (R64, R123). -/
theorem hostStep_of_forbidden_write (hw : h.writes ≠ []) (hmay : mayWrite h s = false) :
    hostStep h s = .refused .bufferWriteDuringParse :=
  if_pos (by simp [hw, hmay])

/-- A host step that is refused when its writes are allowed is refused in any case (R36, R64). -/
theorem hostStep_refused (hcmd : h.wellFormed = true → ∃ r, sampleCommand h (driveInputs h s) = .refused r) :
    ∃ r, hostStep h s = .refused r := by
  unfold hostStep
  split_ifs with hw hwf
  · exact ⟨_, rfl⟩
  · exact ⟨_, rfl⟩
  · obtain ⟨r, hr⟩ := hcmd (by simpa using hwf)
    exact ⟨r, by rw [hr]; rfl⟩

/-- Settles O5: the writes by their two refusals, and the read by the law of the outcome `Truncated`. -/
theorem hostStepsThatStop : Obligations.HostStepsThatStop := by
  intro s h p hp
  refine ⟨fun hw hno => ?_, fun ⟨c, hc, hout⟩ => ?_, fun hw hr hd hst hcmd => ?_⟩
  · rw [step_of_host hp]
    exact hostStep_of_forbidden_write hw (mayWrite_eq_false (s := { s with pending := p }) hno)
  · rw [step_of_host hp]
    exact hostStep_refused fun hwf => absurd (HostStep.writes_lt hwf c hc) (Nat.not_lt.2 hout)
  · refine readingATruncatedOutcomeFaults s h p hp hr hd hst (.inl hw) (by simp [HostStep.wellFormed, hw]) ?_
    refine hcmd.imp_right fun hlt => ?_
    generalize h.cmd = c at hlt ⊢
    revert c
    decide

/-- A step that is refused is the whole of any run from its state. -/
theorem run_of_step_refused {r : Refusal} (hr : step s = .refused r) (n : Nat) :
    Sys2Proof.core.run (n + 1) s = .refused r := by
  have : Sys2Proof.core.step s = .refused r := hr
  simp only [Host.Core.run, this]

/-- Settles O6: the command is refused when it is sampled, if the step's writes are not refused before. -/
theorem reservedCommandsAreRefused : Obligations.ReservedCommandsAreRefused := by
  refine ⟨fun s => ⟨rfl, rfl⟩, fun s h p hp hrst hcmd => ?_⟩
  have hsample : ∀ u, sampleCommand h u = .refused .reservedCommand := by
    intro u
    rw [sampleCommand_of_not_rst hrst]
    rcases hcmd with hcmd | hcmd <;> rw [hcmd] <;> rfl
  obtain ⟨r, hr⟩ := hostStep_refused (s := { s with pending := p }) fun _ => ⟨_, hsample _⟩
  exact ⟨r, run_of_step_refused ((step_of_host hp).trans hr)⟩

/-! ## What a host step leaves -/

/-- Sampling `rst` and `cmd` leaves the buffer, `len` and the events to come as they are (R28, R38). -/
theorem sampleCommand_frame (hn : sampleCommand h s = .next t) : t.buf = s.buf ∧ t.len = s.len ∧ t.pending = s.pending := by
  rcases sampleCommand_next hn with ⟨-, rfl⟩ | ⟨-, -, rfl⟩ | ⟨-, -, -, rfl⟩ | ⟨-, -, -, rfl⟩ <;> exact ⟨rfl, rfl, rfl⟩

/-- Without a reset, `NOP` in any state and every command while busy leave the whole state (R65, R67). -/
theorem sampleCommand_eq_self (hn : sampleCommand h s = .next t) (hrst : h.rst = false)
    (hkeep : h.cmd = 0b00 ∨ s.busy = true) : t = s := by
  rcases sampleCommand_next hn with ⟨hr, -⟩ | ⟨-, -, ht⟩ | ⟨-, -, -, ht⟩ | ⟨-, hc, hb, -⟩
  · exact absurd hr (by simp [hrst])
  · exact ht
  · exact ht
  · simp [hc, hb] at hkeep

/-- An index that the writes of a list give one byte only reads as that byte (R61). -/
theorem readByte_writeCells_of_mem {cs : List (Nat × Byte)} {m : Memory} {c : Nat × Byte}
    (hcs : ∀ d ∈ cs, d.1 < Config.indexSpace) (hm : Memory.wf m) (hc : c ∈ cs) (honly : ∀ d ∈ cs, d.1 = c.1 → d = c) :
    readByte (writeCells m cs) c.1 = c.2 := by
  induction cs generalizing m with
  | nil => cases hc
  | cons e cs ih =>
    have hlater : ∀ d ∈ cs, d.1 < Config.indexSpace := fun d hd => hcs d (List.mem_cons_of_mem _ hd)
    have hwf : Memory.wf (writeByte m e.1 e.2) := wf_writeByte e.2 (hcs e List.mem_cons_self) hm
    by_cases hagain : c ∈ cs
    · exact ih hlater hwf hagain fun d hd => honly d (List.mem_cons_of_mem _ hd)
    · obtain rfl : c = e := (List.mem_cons.1 hc).resolve_right hagain
      have hne : ∀ d ∈ cs, d.1 ≠ c.1 := fun d hd hidx => hagain (honly d (List.mem_cons_of_mem _ hd) hidx ▸ hd)
      calc readByte (writeCells (writeByte m c.1 c.2) cs) c.1
          = readByte (writeByte m c.1 c.2) c.1 := readByte_writeCells_of_ne hlater hne hwf
        _ = c.2 := by rw [readByte_writeByte _ _ _ hm, if_pos rfl]

/-- Settles O29: the buffer is the old one with the host's writes, and sampling the command leaves it. -/
theorem hostStepFrame : Obligations.HostStepFrame := by
  intro h s t hm hn
  obtain ⟨-, hwf, hcmd⟩ := hostStep_next hn
  obtain ⟨hbuf, hlen, hpending⟩ := sampleCommand_frame hcmd
  have hin := HostStep.writes_lt hwf
  rw [hbuf, driveInputs_buf]
  refine ⟨wf_writeCells hin hm, fun a ha => readByte_writeCells_of_ne hin ha hm,
    fun c => readByte_writeCells_of_mem hin hm, hlen, hpending, fun hrst hkeep => ?_⟩
  rw [sampleCommand_eq_self hcmd hrst hkeep]
  rfl

/-- While a parse runs, a host step without a reset takes its event off the list and drives `len`, and leaves the rest: it
can write nothing, and a command is ignored (R67, R72, R123). -/
theorem step_host_while_busy (he : nextEvent s = .host h) (hb : s.busy = true) (hrst : h.rst = false)
    (hn : step s = .next t) : t = { s with len := h.drive.getD s.len, pending := s.pending.tail } := by
  rcases step_next hn with ⟨hseq, -⟩ | ⟨h', he', hw, -, hcmd⟩ | ⟨hwait, -⟩
  · cases he.symm.trans hseq
  · obtain rfl : h = h' := Event.host.inj (he.symm.trans he')
    have hnone : h.writes = [] := hw.resolve_right (by simp [mayWrite_eq_false (.inl hb)])
    rw [sampleCommand_eq_self hcmd hrst (.inr hb), driveInputs, hnone]
    rfl
  · cases he.symm.trans hwait

/-- Settles O44: of the state only `len` and the events to come move. -/
theorem hostStepsDoNotTouchARunningParse : Obligations.HostStepsDoNotTouchARunningParse := by
  intro s t h hb he hrst hn
  obtain rfl := step_host_while_busy he hb hrst hn
  exact ⟨by constructor <;> rfl, rfl, by rw [stepReads, he]⟩

end Sys2Proof.Machine
end

section
/-! PROOF. The host's commands and the hold states: which instructions complete, what NOP and PARSE do, and what leaves IDLE
and DONE (R15, R56, R65 to R70, R116). -/

namespace Sys2Proof.Machine

variable {s t : State} {h : HostStep} {p : List Event}

/-! ## Which instructions complete -/

/-- Settles O8, instruction by instruction: the arm of a reserved one refuses, and the others have a closed form. -/
theorem everyInstructionButTheReservedCompletes : Obligations.EveryInstructionButTheReservedCompletes := by
  intro i s
  cases i with
  | reservedCmd10 | reservedCmd11 | reservedSeqB | reservedSeqCF => exact iff_of_false (fun ⟨_, hn⟩ => by cases hn) (by simp)
  | nop | idle | done | extSizes => exact iff_of_true ⟨_, rfl⟩ (by simp)
  | parse => exact iff_of_true ⟨_, exec_parse_eq s⟩ (by simp)
  | lenchk => exact iff_of_true ⟨_, exec_lenchk_eq s⟩ (by simp)
  | extEntry => exact iff_of_true ⟨_, exec_extEntry_eq s⟩ (by simp)
  | extTitle => exact iff_of_true ⟨_, exec_extTitle_eq s⟩ (by simp)
  | extCart => exact iff_of_true ⟨_, exec_extCart_eq s⟩ (by simp)
  | extDest => exact iff_of_true ⟨_, exec_extDest_eq s⟩ (by simp)
  | extCksum => exact iff_of_true ⟨_, exec_extCksum_eq s⟩ (by simp)
  | sum => exact iff_of_true ⟨_, exec_sum_eq s⟩ (by simp)
  | compare => exact iff_of_true ⟨_, exec_compare_eq s⟩ (by simp)

/-! ## NOP and PARSE -/

/-- A step whose event is a `NOP` only takes the event off the list (R65). -/
theorem step_of_nop (hp : s.pending = .host .nop :: p) : step s = .next { s with pending := p } :=
  (step_of_host hp).trans (hostStep_nop _)

/-- Settles O9: a `NOP` step, and then the sequencer's, with no event left. -/
theorem nopChangesNothing : Obligations.NopChangesNothing := by
  refine ⟨fun _ => rfl, fun _ _ => step_of_nop, fun s _ hp => ?_⟩
  rw [run_of_step_next 1 (step_of_nop hp), run_one, step_of_pending_nil rfl]
  rfl

theorem State.not_busy_iff : s.busy = false ↔ s.seq = Seq.idle ∨ s.seq = Seq.done := by
  rw [← Bool.not_eq_true, State.busy_iff, not_and_or, not_not, not_not]

/-- A PARSE is accepted in a hold state (R66). -/
theorem exec_parse_accepted (hb : s.busy = false) : exec .parse s = .next s.beginParse := by
  rw [exec_parse_eq, hb, if_neg Bool.false_ne_true]

/-- A PARSE is ignored while a parse runs (R67). -/
theorem exec_parse_ignored (hb : s.busy = true) : exec .parse s = .next s := by
  rw [exec_parse_eq, if_pos hb]

/-- Settles O10: the registers as `State.beginParse` writes them. -/
theorem acceptedParseStartsAFreshParse : Obligations.AcceptedParseStartsAFreshParse := fun s hseq =>
  ⟨s.beginParse, exec_parse_accepted (State.not_busy_iff.2 hseq), rfl, rfl, rfl, rfl, rfl⟩

/-- A step whose event is a PARSE drives nothing, so it runs PARSE on the state as it stands. -/
theorem step_of_parse (hp : s.pending = .host .parse :: p) : step s = exec .parse { s with pending := p } :=
  step_of_mayMove hp (hostMayMove_of_noWrites rfl fun hr => by cases hr)

/-- Settles O11: the step runs the ignored PARSE, with its event off the list. -/
theorem parseWhileBusyIsIgnored : Obligations.ParseWhileBusyIsIgnored := by
  intro s hidle hdone
  have hb : s.busy = true := (State.busy_iff s).2 ⟨hidle, hdone⟩
  exact ⟨exec_parse_ignored hb, fun p hp => (step_of_parse hp).trans (exec_parse_ignored hb)⟩

/-! ## The hold states -/

/-- In a hold state the micro-operation in `SEQ` changes nothing (R69, R70; log entry 3). -/
theorem exec_hold (hb : s.busy = false) (u : State) : exec (decodeSeq s.seq) u = .next u := by
  rcases State.not_busy_iff.1 hb with hseq | hseq <;> rw [hseq] <;> rfl

/-- Settles O12: a hold state is a state that a step leaves as it is. -/
theorem holdStatesKeepAllState : Obligations.HoldStatesKeepAllState := by
  refine ⟨fun _ => ⟨rfl, rfl⟩, fun s n hseq hp => run_of_step_self ?_ n⟩
  rw [step_of_pending_nil hp, exec_hold (State.not_busy_iff.2 hseq)]

/-- No instruction leads to IDLE: one that writes `SEQ` writes another code (R53). -/
theorem exec_seq_ne_idle {i : Instr} (hn : exec i s = .next t) : t.seq = s.seq ∨ t.seq ≠ Seq.idle := by
  cases i with
  | nop | idle | done => cases hn; exact .inl rfl
  | reservedCmd10 | reservedCmd11 | reservedSeqB | reservedSeqCF => cases hn
  | parse =>
    obtain rfl := Host.Outcome.next.inj ((exec_parse_eq s).symm.trans hn)
    split
    · exact .inl rfl
    · exact .inr (by simp)
  | lenchk =>
    obtain rfl := Host.Outcome.next.inj ((exec_lenchk_eq s).symm.trans hn)
    split <;> exact .inr (by simp)
  | extEntry => rcases exec_writes_or_raises (exec_extEntry_eq s) hn with rfl | rfl <;> exact .inr (by simp)
  | extTitle => rcases exec_writes_or_raises (exec_extTitle_eq s) hn with rfl | rfl <;> exact .inr (by simp)
  | extCart => rcases exec_writes_or_raises (exec_extCart_eq s) hn with rfl | rfl <;> exact .inr (by simp)
  | extDest => rcases exec_writes_or_raises (exec_extDest_eq s) hn with rfl | rfl <;> exact .inr (by simp)
  | extCksum => rcases exec_writes_or_raises (exec_extCksum_eq s) hn with rfl | rfl <;> exact .inr (by simp)
  | extSizes => cases hn; exact .inr (by simp)
  | sum =>
    obtain rfl := Host.Outcome.next.inj ((exec_sum_eq s).symm.trans hn)
    split_ifs
    · exact .inr (by simp)
    · exact .inl rfl
    · exact .inl rfl
    · exact .inr (by simp)
  | compare => rcases exec_writes_or_raises (exec_compare_eq s) hn with rfl | rfl <;> exact .inr (by simp)

/-- Settles O42, by the agent that moves. -/
theorem onlyParseOrResetLeavesAHoldState : Obligations.OnlyParseOrResetLeavesAHoldState := by
  intro s t hn
  rcases step_next hn with ⟨-, hexec⟩ | ⟨h, he, -, -, hcmd⟩ | ⟨-, rfl⟩
  · refine ⟨fun hb hne => absurd ?_ hne, fun hidle => .inl ?_⟩
    · rw [exec_hold hb] at hexec
      cases hexec
      rfl
    · exact (exec_seq_ne_idle hexec).elim (fun hkeep => hkeep.symm.trans hidle) (absurd hidle)
  · rcases sampleCommand_next hcmd with ⟨hr, rfl⟩ | ⟨-, -, rfl⟩ | ⟨-, -, -, rfl⟩ | ⟨hr, hc, -, rfl⟩
    · exact ⟨fun _ _ => ⟨h, he, .inl hr⟩, fun _ => .inr ⟨h, he, hr⟩⟩
    · exact ⟨fun _ hne => absurd rfl hne, .inl⟩
    · exact ⟨fun _ hne => absurd rfl hne, .inl⟩
    · exact ⟨fun _ _ => ⟨h, he, .inr ⟨hr, hc, rfl, rfl⟩⟩, fun hidle => absurd hidle (by simp)⟩
  · exact ⟨fun _ hne => absurd rfl hne, .inl⟩

end Sys2Proof.Machine
end

section
/-! PROOF. The whole parse: each step of a parse keeps it on the course that ends in `Parse(L, buf)`, alone and between the
host's quiet steps (R66, R72, R93 to R95, R98, R99). -/

namespace Sys2Proof.Machine

variable {s t : State} {p : List Event}

/-! ## The cases of the whole-parse function -/

theorem parseFunction_of_short {L : Nat} (h : L < 0x14F) (buf : Nat → Byte) :
    parseFunction L buf = .error .romTooShort :=
  if_pos h

theorem parseFunction_of_oneShort (buf : Nat → Byte) : parseFunction 0x14F buf = .fault := rfl

theorem parseFunction_of_full {L : Nat} (h : 0x150 ≤ L) (buf : Nat → Byte) :
    parseFunction L buf = if checksum buf L = declaredChecksum buf then .record (recordOf buf) else .error .badChecksum := by
  rw [parseFunction, if_neg (by omega), if_neg (by omega)]

/-! ## A parse on its course -/

/-- The record a running parse is going to yield when it ends in `OK`: a field's register once its micro-operation is done
(R53), the buffer's field before. -/
def State.recordAhead (s : State) : Record where
  entryPoint := if s.seq.toNat ≤ 2 then (recordOf (readByte s.buf)).entryPoint else (s.entry0, s.entry1)
  title := if s.seq.toNat ≤ 3 then (recordOf (readByte s.buf)).title else s.title
  cartridgeType := if s.seq.toNat ≤ 4 then (recordOf (readByte s.buf)).cartridgeType else s.cart
  romSize := if s.seq.toNat ≤ 7 then 0x0000 else s.romSz
  ramSize := if s.seq.toNat ≤ 7 then 0x0000 else s.ramSz
  destinationCode := if s.seq.toNat ≤ 5 then (recordOf (readByte s.buf)).destinationCode else s.dest
  checksum := if s.seq.toNat ≤ 6 then declaredChecksum (readByte s.buf) else s.cksum

/-- A parse that has begun, with what it has read and summed so far, and once it is over, with the outcome of the
whole-parse function. -/
structure OnCourse (s : State) : Prop extends ParseProgress s where
  record_ahead : s.busy = true → s.recordAhead = recordOf (readByte s.buf)
  sum_partial : s.busy = true → s.sum = BitVec.ofNat 16 (byteSum (readByte s.buf) s.idx.toNat)
  loop_over : s.seq = Seq.compare → s.idx = s.lenR
  observed : s.isDone = true → observe s = parseFunction s.lenR.toNat (readByte s.buf)

/-- A fresh parse has read nothing and summed nothing. -/
theorem FreshParse.onCourse (hs : FreshParse s) : OnCourse s :=
  { hs.parseProgress with
    record_ahead := fun _ => by simp [State.recordAhead, hs.seq, recordOf]
    sum_partial := fun _ => by simp [hs.idx, hs.sum]
    loop_over := fun h => absurd (hs.seq.symm.trans h) (by decide)
    observed := fun hd => absurd (hs.seq.symm.trans ((State.isDone_iff s).1 hd)) (by decide) }

/-- The host's `len` wire and the events to come are no part of a parse (R72). -/
theorem OnCourse.withHost (hs : OnCourse s) (n : Index) (p : List Event) :
    OnCourse { s with len := n, pending := p } :=
  { hs with }

/-! ## The end of a parse -/

/-- COMPARE finds the whole sum (R93, R95). -/
theorem OnCourse.sum_at_compare (hs : OnCourse s) (hb : s.busy = true) (hseq : s.seq = Seq.compare) :
    s.sum = checksum (readByte s.buf) s.lenR.toNat := by
  rw [hs.sum_partial hb, hs.loop_over hseq, checksum]

/-- COMPARE finds every field register written. -/
theorem OnCourse.record_at_compare (hs : OnCourse s) (hb : s.busy = true) (hseq : s.seq = Seq.compare) :
    s.record = recordOf (readByte s.buf) := by
  rw [← hs.record_ahead hb]
  simp [State.recordAhead, State.record, hseq]

/-- The outcome whose cause holds is that of the whole-parse function (R98, R101). -/
theorem OnCourse.observe_raise (hs : OnCourse s) (hb : s.busy = true) {e : ParseOutcome} (hat : s.seq = e.raisedAt)
    (hcause : OutcomeCause (s.raise e)) : observe (s.raise e) = parseFunction s.lenR.toNat (readByte s.buf) := by
  have hcksum (hseq : s.seq = Seq.compare) : s.cksum = declaredChecksum (readByte s.buf) :=
    congrArg Record.checksum (hs.record_at_compare hb hseq)
  cases e with
  | romTooShort =>
    have hshort : s.lenR.toNat < 0x14F := hcause
    rw [observe_of_romTooShort rfl rfl, parseFunction_of_short hshort]
  | truncated =>
    have hlen : s.lenR.toNat = 0x14F := hcause
    rw [observe_of_truncated rfl rfl, hlen, parseFunction_of_oneShort]
  | ok =>
    obtain ⟨hfull, heq⟩ : 0x150 ≤ s.lenR.toNat ∧ s.sum = s.cksum := hcause
    rw [observe_of_ok rfl rfl, parseFunction_of_full hfull, ← hs.sum_at_compare hb hat, ← hcksum hat, if_pos heq,
      ← hs.record_at_compare hb hat]
    rfl
  | badChecksum =>
    obtain ⟨hfull, hne⟩ : 0x150 ≤ s.lenR.toNat ∧ s.sum ≠ s.cksum := hcause
    rw [observe_of_badChecksum rfl rfl, parseFunction_of_full hfull, ← hs.sum_at_compare hb hat, ← hcksum hat, if_neg hne]

theorem OnCourse.raise (hs : OnCourse s) (hb : s.busy = true) {e : ParseOutcome} (hat : s.seq = e.raisedAt)
    (hcause : OutcomeCause (s.raise e)) : OnCourse (s.raise e) :=
  { hs.toParseProgress.raise hcause with
    record_ahead := fun h => by cases h
    sum_partial := fun h => by cases h
    loop_over := fun h => absurd (show Seq.done = Seq.compare from h) (by decide)
    observed := fun _ => hs.observe_raise hb hat hcause }

/-! ## The steps of a parse -/

/-- An extraction that does not raise leaves the record ahead when the fields it writes do. -/
theorem recordAhead_of_extraction {i : Instr} {inside : Prop} [Decidable inside] {u : State} {e : ParseOutcome}
    (hi : exec i s = .next (if inside then u else s.raise e)) (hn : exec i s = .next t) (hgo : t.seq ≠ Seq.done)
    (hu : u.recordAhead = s.recordAhead) : t.recordAhead = s.recordAhead := by
  rcases exec_writes_or_raises hi hn with rfl | rfl
  · exact hu
  · exact absurd rfl hgo

/-- A micro-operation that does not end the parse leaves the record ahead: the field it writes is the buffer's. -/
theorem ParseProgress.recordAhead_of_exec (hs : ParseProgress s) (hb : s.busy = true)
    (hexec : exec (decodeSeq s.seq) s = .next t) (hgo : t.seq ≠ Seq.done) : t.recordAhead = s.recordAhead := by
  rcases hs.seq_cases hb with hseq | hseq | hseq | hseq | hseq | hseq | hseq | hseq | hseq <;> rw [hseq] at hexec
  · obtain rfl := Host.Outcome.next.inj ((exec_lenchk_eq s).symm.trans hexec)
    split_ifs at hgo ⊢
    · exact absurd rfl hgo
    · simp [State.recordAhead, hseq]
  · exact recordAhead_of_extraction (exec_extEntry_eq s) hexec hgo (by simp [State.recordAhead, hseq, recordOf])
  · exact recordAhead_of_extraction (exec_extTitle_eq s) hexec hgo (by simp [State.recordAhead, hseq, recordOf])
  · exact recordAhead_of_extraction (exec_extCart_eq s) hexec hgo (by simp [State.recordAhead, hseq, recordOf])
  · exact recordAhead_of_extraction (exec_extDest_eq s) hexec hgo (by simp [State.recordAhead, hseq, recordOf])
  · exact recordAhead_of_extraction (exec_extCksum_eq s) hexec hgo (by simp [State.recordAhead, hseq])
  · cases hexec
    simp [State.recordAhead, hseq]
  · obtain rfl := Host.Outcome.next.inj ((exec_sum_eq s).symm.trans hexec)
    split_ifs at hgo ⊢
    · simp [State.recordAhead, hseq]
    · rfl
    · rfl
    · exact absurd rfl hgo
  · obtain rfl := Host.Outcome.next.inj ((exec_compare_eq s).symm.trans hexec)
    split_ifs at hgo <;> exact absurd rfl hgo

/-- SUM adds the byte at `IDX`, or nothing in the skip range, as the closed-form sum does (R93, R95). -/
theorem ParseProgress.sum_partial_of_execSum (hs : ParseProgress s) (hn : exec .sum s = .next t)
    (hsum : s.sum = BitVec.ofNat 16 (byteSum (readByte s.buf) s.idx.toNat)) :
    t.sum = BitVec.ofNat 16 (byteSum (readByte s.buf) t.idx.toNat) := by
  have hidx (hgo : s.idx ≠ s.lenR) : (s.idx + 1).toNat = s.idx.toNat + 1 :=
    idx_succ_toNat (lt_of_le_of_ne hs.idx_le fun h => hgo (BitVec.eq_of_toNat_eq h))
  obtain rfl := Host.Outcome.next.inj ((exec_sum_eq s).symm.trans hn)
  split_ifs with hend hskip hin
  · exact hsum
  · rw [hidx hend, byteSum_succ, if_pos hskip]
    exact hsum
  · rw [hidx hend, byteSum_succ, if_neg hskip, ← ofNat_add_setWidth, ← hsum]
  · exact hsum

/-- `SEQ` names no command of the host (R53). -/
theorem decodeSeq_ne_parse (c : BitVec 4) : decodeSeq c ≠ .parse := by
  revert c; decide

/-- Every micro-operation leaves in `SUM` the sum of the bytes before `IDX`: SUM alone writes the two (R13, R93). -/
theorem ParseProgress.sum_partial_of_exec (hs : ParseProgress s) (hexec : exec (decodeSeq s.seq) s = .next t)
    (hsum : s.sum = BitVec.ofNat 16 (byteSum (readByte s.buf) s.idx.toNat)) :
    t.sum = BitVec.ofNat 16 (byteSum (readByte s.buf) t.idx.toNat) := by
  by_cases hi : decodeSeq s.seq = .sum
  · exact hs.sum_partial_of_execSum (hi ▸ hexec) hsum
  · obtain ⟨-, -, -, hkeep, -⟩ := eachRegisterHasItsWriters _ s t hexec
    obtain ⟨hidx, hsum'⟩ := hkeep (by simp [hi, decodeSeq_ne_parse])
    rw [hsum', hidx, hsum]

theorem succ_ne_done {c : BitVec 4} (h : c.toNat ≤ 8) : c + 1 ≠ Seq.done := by
  revert c; decide

theorem eq_sum_of_succ_eq_compare {c : BitVec 4} (h : c + 1 = Seq.compare) : c = Seq.sum := by
  revert c; decide

/-- The moves that go on do not lead into DONE, and lead into COMPARE from SUM's last turn alone (R53, R93). -/
theorem SequencerMove.outcome_or_goes_on (hmove : SequencerMove s t) :
    (∃ e, s.seq = ParseOutcome.raisedAt e ∧ OutcomeCause (s.raise e) ∧ t = s.raise e) ∨
      t.seq ≠ Seq.done ∧ (t.seq = Seq.compare → t.idx = s.lenR) := by
  cases hmove with
  | outcome e hat hcause hraise => exact .inl ⟨e, hat, hcause, hraise⟩
  | loop hsum _ hseq =>
    rw [hseq, hsum]
    exact .inr ⟨by decide, fun h => absurd h (by decide)⟩
  | advance hbefore _ _ hend hseq hidx =>
    rw [hseq, hidx]
    exact .inr ⟨succ_ne_done hbefore, fun h => hend (eq_sum_of_succ_eq_compare h)⟩

/-- The sequencer's steps keep a parse on its course. -/
theorem OnCourse.of_exec (hs : OnCourse s) (hb : s.busy = true) (hexec : exec (decodeSeq s.seq) s = .next t)
    (hmove : SequencerMove s t) : OnCourse t := by
  obtain ⟨hlenR, hbuf, -⟩ := exec_micro_frame hexec
  rcases hmove.outcome_or_goes_on with ⟨e, hat, hcause, rfl⟩ | ⟨hgo, hend⟩
  · exact hs.raise hb hat hcause
  · exact { hs.toParseProgress.of_move hlenR hmove with
      record_ahead := fun _ => by rw [hs.recordAhead_of_exec hb hexec hgo, hs.record_ahead hb, hbuf]
      sum_partial := fun _ => by rw [hbuf]; exact hs.sum_partial_of_exec hexec (hs.sum_partial hb)
      loop_over := fun h => (hend h).trans hlenR.symm
      observed := fun hd => absurd ((State.isDone_iff t).1 hd) hgo }

/-! ## Runs of a parse -/

/-- A parse on its course, `k` sequencer steps later: for the same length and the same buffer. -/
structure StepsOn (k : Nat) (s t : State) : Prop where
  onCourse : OnCourse t
  lenR : t.lenR = s.lenR
  buf : t.buf = s.buf
  stepsLeft : stepsLeft s = stepsLeft t + k

theorem OnCourse.stepsOn_zero (hs : OnCourse s) : StepsOn 0 s s := ⟨hs, rfl, rfl, rfl⟩

theorem StepsOn.trans {j k : Nat} {u : State} (hst : StepsOn j s t) (htu : StepsOn k t u) : StepsOn (k + j) s u where
  onCourse := htu.onCourse
  lenR := htu.lenR.trans hst.lenR
  buf := htu.buf.trans hst.buf
  stepsLeft := by rw [hst.stepsLeft, htu.stepsLeft, Nat.add_assoc]

/-- A sequencer step of a running parse. -/
theorem OnCourse.step_sequencer (hs : OnCourse s) (hb : s.busy = true) (he : nextEvent s = .sequencer) :
    ∃ t, step s = .next t ∧ StepsOn 1 s t ∧ t.pending = s.pending.tail := by
  have hs' := hs.withHost s.len s.pending.tail
  obtain ⟨t, hexec, hmove⟩ := hs'.exec_move hb
  obtain ⟨hlenR, hbuf, hpending⟩ := exec_micro_frame hexec
  exact ⟨t, (step_of_sequencer he).trans hexec,
    ⟨hs'.of_exec hb hexec hmove, hlenR, hbuf, hs'.stepsLeft_of_move hb hlenR hmove⟩, hpending⟩

/-- A quiet host step during a parse: there is no outcome to read, and the parse is where it was (R72). -/
theorem OnCourse.step_quiet_host (hs : OnCourse s) (hb : s.busy = true) {h : HostStep} (hp : s.pending = .host h :: p)
    (hquiet : quietEvent (.host h) = true) : ∃ t, step s = .next t ∧ StepsOn 0 s t ∧ t.pending = p := by
  simp only [quietEvent, Bool.and_eq_true, Bool.not_eq_true', List.isEmpty_iff, Bool.or_eq_true, beq_iff_eq] at hquiet
  obtain ⟨⟨hrst, hw⟩, hcmd⟩ := hquiet
  have hunread : observe s ≠ .fault := by
    rw [observe_of_seq_ne ((State.busy_iff s).1 hb).2]
    nofun
  obtain ⟨t, hsample⟩ := sampleCommand_completes (.inr hcmd) (driveInputs h { s with pending := p })
  have hstep := (step_of_mayMove hp (hostMayMove_of_noWrites hw fun _ => hunread)).trans hsample
  have hp' : s.pending.tail = p := by rw [hp, List.tail_cons]
  obtain rfl := step_host_while_busy (by rw [nextEvent, hp, List.headD_cons]) hb hrst hstep
  exact ⟨_, hstep, ⟨hs.withHost _ _, rfl, rfl, rfl⟩, hp'⟩

/-- A quiet event is one of the sequencer's steps left, or none of them. -/
theorem OnCourse.step_quiet (hs : OnCourse s) (hb : s.busy = true) {e : Event} (hp : s.pending = e :: p)
    (hquiet : quietEvent e = true) :
    ∃ t, step s = .next t ∧ StepsOn (if e == .sequencer then 1 else 0) s t ∧ t.pending = p := by
  cases e with
  | sequencer =>
    obtain ⟨t, hstep, hon, hpt⟩ := hs.step_sequencer hb (by rw [nextEvent, hp, List.headD_cons])
    exact ⟨t, hstep, hon, by rw [hpt, hp, List.tail_cons]⟩
  | host h => exact hs.step_quiet_host hb hp hquiet
  | waitDone => cases hquiet

/-- A quiet schedule with fewer sequencer steps than are left of the parse runs to its end. -/
theorem OnCourse.run_quiet (hs : OnCourse s) {rest : List Event} (hp : s.pending = p ++ rest)
    (hquiet : ∀ e ∈ p, quietEvent e = true) (hfew : p.count .sequencer < stepsLeft s) :
    ∃ t : State, (∀ n, Sys2Proof.core.run (p.length + n) s = Sys2Proof.core.run n t) ∧ StepsOn (p.count .sequencer) s t ∧
      t.pending = rest := by
  induction p generalizing s with
  | nil => exact ⟨s, fun n => by rw [List.length_nil, Nat.zero_add], hs.stepsOn_zero, hp⟩
  | cons e p ih =>
    rw [List.forall_mem_cons] at hquiet
    obtain ⟨t, hstep, hon, hpt⟩ := hs.step_quiet (busy_of_stepsLeft_pos (by omega)) hp hquiet.1
    have hleft := hon.stepsLeft
    rw [List.count_cons] at hfew ⊢
    obtain ⟨u, hrun, hon', hpu⟩ := ih hon.onCourse hpt hquiet.2 (by omega)
    exact ⟨u, fun n => by rw [List.length_cons, Nat.add_right_comm, run_of_step_next _ hstep, hrun], hon.trans hon', hpu⟩

/-- With no event listed, a parse runs as many steps as are left of it. -/
theorem OnCourse.run_alone (hs : OnCourse s) (hp : s.pending = []) {n : Nat} (hn : n ≤ stepsLeft s) :
    ∃ t : State, Sys2Proof.core.run n s = .next t ∧ StepsOn n s t := by
  induction n generalizing s with
  | zero => exact ⟨s, rfl, hs.stepsOn_zero⟩
  | succ n ih =>
    obtain ⟨t, hstep, hon, hpt⟩ :=
      hs.step_sequencer (busy_of_stepsLeft_pos (by omega)) (by rw [nextEvent, hp, List.headD_nil])
    have hleft := hon.stepsLeft
    obtain ⟨u, hrun, hon'⟩ := ih hon.onCourse (by rw [hpt, hp, List.tail_nil]) (by omega)
    exact ⟨u, (run_of_step_next n hstep).trans hrun, hon.trans hon'⟩

/-- With steps left the parse still runs. -/
theorem StepsOn.busy {k : Nat} (hon : StepsOn k s t) (hk : k < Machine.stepsLeft s) : t.busy = true := by
  have hleft := hon.stepsLeft
  exact busy_of_stepsLeft_pos (by omega)

/-- With no step left a parse is over: while it runs, one more move is left. -/
theorem ParseProgress.isDone_of_no_stepsLeft (hs : ParseProgress s) (h : stepsLeft s = 0) : s.isDone = true :=
  hs.isDone_of_not_busy fun hb => by
    obtain ⟨t, hexec, hmove⟩ := hs.exec_move hb
    rw [hs.stepsLeft_of_move hb (exec_micro_frame hexec).1 hmove] at h
    cases h

/-- After all the steps left, the parse is over and observed as the whole-parse function. -/
theorem StepsOn.over {k : Nat} (hon : StepsOn k s t) (hk : k = Machine.stepsLeft s) :
    t.isDone = true ∧ observe t = parseFunction s.lenR.toNat (readByte s.buf) ∧ t.buf = s.buf := by
  have hleft := hon.stepsLeft
  have hd := hon.onCourse.isDone_of_no_stepsLeft (by omega)
  exact ⟨hd, by rw [hon.onCourse.observed hd, hon.lenR, hon.buf], hon.buf⟩

/-- Settles O52: the schedule up to the parse's last step, and that step. -/
theorem everyInterleavingGivesTheSameOutcome : Obligations.EveryInterleavingGivesTheSameOutcome := by
  intro s p rest hs hp hquiet hcount
  rw [← stepsLeft_of_fresh hs] at hcount
  have hfew : p.count .sequencer < stepsLeft s := by omega
  obtain ⟨t, hrun, hon, hpt⟩ := hs.onCourse.run_quiet hp hquiet hfew
  obtain ⟨u, hstep, hlast, hpu⟩ := hon.onCourse.step_sequencer (hon.busy hfew) (by rw [nextEvent, hpt, List.headD_cons])
  obtain ⟨hd, hobs, hbuf⟩ := (hon.trans hlast).over (by omega)
  exact ⟨u, (hrun 1).trans ((run_one t).trans hstep), hd, hobs, hbuf, by rw [hpu, hpt, List.tail_cons]⟩

theorem freshParse_beginParse (s : State) : FreshParse s.beginParse := ⟨rfl, rfl, rfl⟩

/-- An accepted PARSE with no event behind it: what the parse goes on from, and how many steps it has left (R66). -/
theorem run_accepted_parse (hb : s.busy = false) (hp : s.pending = [.host .parse]) :
    ∃ t : State, (∀ n, Sys2Proof.core.run (n + 1) s = Sys2Proof.core.run n t) ∧ FreshParse t ∧ t.pending = [] ∧
      t.lenR = s.len ∧ t.buf = s.buf :=
  ⟨State.beginParse { s with pending := [] },
    fun n => run_of_step_next n ((step_of_parse hp).trans (exec_parse_accepted hb)), freshParse_beginParse _, rfl, rfl, rfl⟩

/-- Settles O51: the host step accepts the PARSE, and the fresh parse then runs alone. -/
theorem aParseComputesTheWholeParseFunction : Obligations.AParseComputesTheWholeParseFunction := by
  intro s hb hp
  obtain ⟨t, hrun, hfresh, hpt, hlenR, hbuf⟩ := run_accepted_parse hb hp
  have hleft := stepsLeft_of_fresh hfresh
  rw [← hlenR, ← hbuf, ← hleft]
  constructor
  · obtain ⟨u, hu, hon⟩ := hfresh.onCourse.run_alone hpt le_rfl
    exact ⟨u, by rw [Nat.add_comm, hrun, hu], hon.over rfl⟩
  · intro n hpos hn
    obtain ⟨k, rfl⟩ := Nat.exists_eq_add_of_le' hpos
    obtain ⟨u, hu, hon⟩ := hfresh.onCourse.run_alone hpt (Nat.le_of_succ_le hn)
    exact ⟨u, (hrun k).trans hu, hon.busy hn⟩

end Sys2Proof.Machine
end

section
/-! PROOF. The length check and what it guards: LENCHK raises below 0x14F without a read, and past it every read lies inside
the buffer (R37, R73, R74, R75, R122). -/

namespace Sys2Proof.Machine

variable {s : State}

/-! ## LENCHK on either side of `MIN_LEN` (R73) -/

theorem exec_lenchk_of_short (h : s.lenR.toNat < 0x14F) : exec .lenchk s = .next (s.raise .romTooShort) := by
  rw [exec_lenchk_eq, if_pos h]

theorem exec_lenchk_of_long (h : 0x14F ≤ s.lenR.toNat) : exec .lenchk s = .next { s with seq := Seq.extEntry } := by
  rw [exec_lenchk_eq, if_neg (Nat.not_lt.2 h)]

/-- Settles O13: the two sides of the closed form's test. -/
theorem lenchkRaisesExactlyBelowMinLen : Obligations.LenchkRaisesExactlyBelowMinLen := fun _ =>
  ⟨exec_lenchk_of_short, exec_lenchk_of_long, rfl⟩

/-- With no event listed, the bus carries the reads of the micro-operation in `SEQ`. -/
theorem stepReads_of_pending_nil (h : s.pending = []) : stepReads s = busReads (decodeSeq s.seq) s := by
  simp only [stepReads, nextEvent, h, List.headD_nil, decode]

/-- Settles O49: the one step of a fresh parse is LENCHK's, which raises. -/
theorem shortBuffersAreRomTooShort : Obligations.ShortBuffersAreRomTooShort := by
  intro s hs hshort hp
  have hreads : stepReads s = [] := by rw [stepReads_of_pending_nil hp, hs.seq]; rfl
  have hstep : step s = .next (s.raise .romTooShort) := by
    rw [step_of_pending_nil hp, hs.seq]
    exact exec_lenchk_of_short hshort
  refine ⟨hreads, hstep, fun t ht => ?_⟩
  obtain rfl := Host.Outcome.next.inj (hstep.symm.trans ht)
  exact observe_of_romTooShort rfl rfl

/-! ## Reads inside the buffer (R37, R75, R122) -/

/-- The micro-operations that read with no check of their own: LENCHK has checked for them (R75, R77). -/
def uncheckedReads : List Instr := [.extEntry, .extTitle, .extCart, .extDest]

/-- Their codes come after that of LENCHK, and none past that of COMPARE (R53). -/
theorem code_of_uncheckedReads {c : BitVec 4} (h : decodeSeq c ∈ uncheckedReads) : 2 ≤ c.toNat ∧ c.toNat ≤ 9 := by
  revert c; decide

/-- They all read below `MIN_LEN` (R42). -/
theorem operand_lt_of_uncheckedReads {i : Instr} (hi : i ∈ uncheckedReads) : ∀ a ∈ operandIndices i s, a < 0x14F := by
  simp only [uncheckedReads, List.mem_cons, List.not_mem_nil, or_false] at hi
  rcases hi with rfl | rfl | rfl | rfl
  · rw [operandIndices_extEntry]; decide
  · rw [operandIndices_extTitle]; decide
  · rw [operandIndices_extCart]; decide
  · rw [operandIndices_extDest]; decide

/-- EXT_CKSUM checks the length itself, in every state (R83). -/
theorem operand_inside_extCksum : ∀ a ∈ operandIndices .extCksum s, a < s.lenR.toNat := by
  rw [operandIndices_extCksum]
  split_ifs with hshort
  · exact List.forall_mem_nil _
  · simp only [List.forall_mem_cons]
    exact ⟨by omega, by omega, List.forall_mem_nil _⟩

/-- SUM reads only at an `IDX` that has not reached `LEN_R` (R93). -/
theorem operand_inside_sum (hidx : s.idx.toNat ≤ s.lenR.toNat) : ∀ a ∈ operandIndices .sum s, a < s.lenR.toNat := by
  rw [operandIndices_sum]
  split_ifs with hnone
  · exact List.forall_mem_nil _
  · rw [List.forall_mem_singleton]
    exact lt_of_le_of_ne hidx fun h => hnone (.inl (BitVec.eq_of_toNat_eq h))

/-- What every read rests on: LENCHK's check, or the loop's bound on `IDX`. -/
theorem operand_inside {i : Instr} (hlen : i ∈ uncheckedReads → 0x14F ≤ s.lenR.toNat)
    (hidx : s.idx.toNat ≤ s.lenR.toNat) : ∀ a ∈ operandIndices i s, a < s.lenR.toNat := by
  cases i with
  | extEntry | extTitle | extCart | extDest =>
    exact fun a ha => (operand_lt_of_uncheckedReads (by decide) a ha).trans_le (hlen (by decide))
  | extCksum => exact operand_inside_extCksum
  | sum => exact operand_inside_sum hidx
  | nop | parse | reservedCmd10 | reservedCmd11 | idle | lenchk | extSizes | compare | done | reservedSeqB | reservedSeqCF =>
    exact List.forall_mem_nil _

/-- Settles O45: the invariant has what each micro-operation's reads rest on, and reads that lie inside are all driven. -/
theorem everyReadLiesInsideTheBuffer : Obligations.EveryReadLiesInsideTheBuffer := by
  intro s hs
  have hin : ∀ a ∈ operandIndices (decodeSeq s.seq) s, a < s.lenR.toNat :=
    operand_inside (fun h => (code_of_uncheckedReads h).elim hs.len_passed) hs.idx_le
  exact ⟨hin, busReads_of_inside hin⟩

end Sys2Proof.Machine
end

section
/-! PROOF. The field extractions: what each one writes past the length check, and the parse of length 0x14F that ends among
them (R77 to R86). -/

namespace Sys2Proof.Machine

variable {s : State}

/-! ## Where the bytes read lie inside the buffer (R75, R78 to R83) -/

theorem exec_extEntry_of_inside (h : 0x103 < s.lenR.toNat) : exec .extEntry s = .next { s with
    entry0 := be16 (readByte s.buf 0x100) (readByte s.buf 0x101)
    entry1 := be16 (readByte s.buf 0x102) (readByte s.buf 0x103)
    seq := Seq.extTitle } := by
  rw [exec_extEntry_eq, if_pos h]

theorem exec_extTitle_of_inside (h : 0x142 < s.lenR.toNat) : exec .extTitle s = .next { s with
    title := (recordOf (readByte s.buf)).title, seq := Seq.extCart } := by
  rw [exec_extTitle_eq, if_pos h]
  rfl

theorem exec_extCart_of_inside (h : 0x147 < s.lenR.toNat) : exec .extCart s = .next { s with
    cart := (cartLUT (readByte s.buf 0x147)).code, seq := Seq.extDest } := by
  rw [exec_extCart_eq, if_pos h]

theorem exec_extDest_of_inside (h : 0x14A < s.lenR.toNat) : exec .extDest s = .next { s with
    dest := destMap (readByte s.buf 0x14A), seq := Seq.extCksum } := by
  rw [exec_extDest_eq, if_pos h]

theorem exec_extCksum_of_inside (h : 0x14F < s.lenR.toNat) : exec .extCksum s = .next { s with
    cksum := declaredChecksum (readByte s.buf), seq := Seq.extSizes } := by
  rw [exec_extCksum_eq, if_pos h]

/-- EXT_CKSUM's own length check, on the side that raises (R83). -/
theorem exec_extCksum_of_short (h : s.lenR.toNat ≤ 0x14F) : exec .extCksum s = .next (s.raise .truncated) := by
  rw [exec_extCksum_eq, if_neg (Nat.not_lt.2 h)]

theorem busReads_extCksum_of_short (h : s.lenR.toNat ≤ 0x14F) : busReads .extCksum s = [] := by
  rw [busReads_of_inside operand_inside_extCksum, operandIndices_extCksum, if_pos h]

/-! ## The fields one by one -/

/-- Settles O14: `BE16` is the two bytes side by side. -/
theorem extEntryReadsTwoBigEndianWords : Obligations.ExtEntryReadsTwoBigEndianWords := fun _ =>
  exec_extEntry_of_inside

/-- Settles O15: the title written is the record's, built byte by byte. -/
theorem extTitleCopiesFifteenBytesAndPads : Obligations.ExtTitleCopiesFifteenBytesAndPads := fun _ h =>
  ⟨_, exec_extTitle_of_inside h, fun k hk => by simp [recordOf, hk], by simp [recordOf]⟩

/-- Settles O17: the two cases of `DestMap`. -/
theorem extDestTellsZeroFromTheRest : Obligations.ExtDestTellsZeroFromTheRest := by
  intro s h
  rw [exec_extDest_of_inside h, destMap]
  exact ⟨fun hzero => by rw [if_pos hzero], fun hother => by rw [if_neg hother]⟩

/-- Settles O18: the two sides of EXT_CKSUM's length check. -/
theorem extCksumRaisesOrReadsTheDeclaredSum : Obligations.ExtCksumRaisesOrReadsTheDeclaredSum := fun _ =>
  ⟨fun h => ⟨exec_extCksum_of_short h, busReads_extCksum_of_short h⟩, exec_extCksum_of_inside⟩

/-- Settles O19: EXT_SIZES has no operand and no condition. -/
theorem extSizesClearsThePlaceholders : Obligations.ExtSizesClearsThePlaceholders := fun _ => ⟨rfl, rfl⟩

/-- Settles O27: past the length check every read but EXT_CKSUM's lies inside the buffer, and EXT_CKSUM's does unless the
length is 0x14F. -/
theorem extractionsWriteOnlyTheirOwnFields : Obligations.ExtractionsWriteOnlyTheirOwnFields := by
  intro i s t hi hlen hn
  simp only [List.mem_cons, List.not_mem_nil, or_false] at hi
  rcases hi with rfl | rfl | rfl | rfl | rfl | rfl
  · cases (exec_extEntry_of_inside (by omega)).symm.trans hn; simp
  · cases (exec_extTitle_of_inside (by omega)).symm.trans hn; simp
  · cases (exec_extCart_of_inside (by omega)).symm.trans hn; simp
  · cases (exec_extDest_of_inside (by omega)).symm.trans hn; simp
  · rcases hlen.eq_or_lt with heq | hlt
    · cases (exec_extCksum_of_short heq.ge).symm.trans hn
      simp [heq.symm, State.raise, ParseOutcome.code]
    · cases (exec_extCksum_of_inside hlt).symm.trans hn
      simp [hlt.ne']
  · cases hn; simp

/-! ## The parse of length 0x14F (R84) -/

/-- One step of a run with no event listed: the micro-operation in `SEQ`. -/
theorem run_of_exec_next {i : Instr} {t : State} (hp : s.pending = []) (hi : decodeSeq s.seq = i)
    (hexec : exec i s = .next t) {n : Nat} : Sys2Proof.core.run (n + 1) s = Sys2Proof.core.run n t :=
  run_of_step_next n ((step_of_pending_nil hp).trans (hi ▸ hexec))

/-- A parse as EXT_CKSUM finds it: the first four fields written (R53). -/
def State.atExtCksum (s : State) : State :=
  let r := recordOf (readByte s.buf)
  { s with entry0 := r.entryPoint.1, entry1 := r.entryPoint.2, title := r.title, cart := r.cartridgeType,
           dest := r.destinationCode, seq := Seq.extCksum }

/-- A parse that passes LENCHK comes to EXT_CKSUM in five steps (R75, R77). -/
theorem run_to_extCksum (hseq : s.seq = Seq.lenchk) (hp : s.pending = []) (hlen : 0x14F ≤ s.lenR.toNat) (n : Nat) :
    Sys2Proof.core.run (n + 5) s = Sys2Proof.core.run n s.atExtCksum := by
  have hin {a : Nat} (ha : a < 0x14F) : a < s.lenR.toNat := ha.trans_le hlen
  -- `by exact`: the facts are about the state of their line, which stands only in the calculation.
  calc Sys2Proof.core.run (n + 5) s
    _ = Sys2Proof.core.run (n + 4) { s with seq := Seq.extEntry } :=
      run_of_exec_next hp (congrArg decodeSeq hseq) (exec_lenchk_of_long hlen)
    _ = Sys2Proof.core.run (n + 3)
        { s.atExtCksum with seq := Seq.extTitle, title := s.title, cart := s.cart, dest := s.dest } :=
      run_of_exec_next (i := .extEntry) (by exact hp) rfl (exec_extEntry_of_inside (by exact hin (by decide)))
    _ = Sys2Proof.core.run (n + 2) { s.atExtCksum with seq := Seq.extCart, cart := s.cart, dest := s.dest } :=
      run_of_exec_next (i := .extTitle) (by exact hp) rfl (exec_extTitle_of_inside (by exact hin (by decide)))
    _ = Sys2Proof.core.run (n + 1) { s.atExtCksum with seq := Seq.extDest, dest := s.dest } :=
      run_of_exec_next (i := .extCart) (by exact hp) rfl (exec_extCart_of_inside (by exact hin (by decide)))
    _ = Sys2Proof.core.run n s.atExtCksum :=
      run_of_exec_next (i := .extDest) (by exact hp) rfl (exec_extDest_of_inside (by exact hin (by decide)))

/-- Settles O50: five steps to EXT_CKSUM, which raises and leaves the fields written before it. -/
theorem lengthOneShortOfTheHeaderIsTruncated : Obligations.LengthOneShortOfTheHeaderIsTruncated := by
  intro s hs hlen hp
  have hrun : Sys2Proof.core.run 6 s = .next (s.atExtCksum.raise .truncated) :=
    (run_to_extCksum hs.seq hp hlen.ge 1).trans
      (run_of_exec_next (s := s.atExtCksum) hp rfl (exec_extCksum_of_short (s := s.atExtCksum) hlen.le))
  exact ⟨_, hrun, rfl, rfl, rfl, rfl, rfl, observe_of_truncated rfl rfl, rfl⟩

end Sys2Proof.Machine
end

section
/-! PROOF. Which bytes the record and the checksum depend on, and byte 0x143 (R80, R95, R98). -/

namespace Sys2Proof.Machine

variable {buf : Nat → Byte} {L i : Nat} {b : Byte}

/-- The record is read below 0x150, and past the 15 title bytes not at 0x143 (R78 to R83). -/
theorem recordOf_congr {b₁ b₂ : Nat → Byte} (h : ∀ i < 0x150, i ≠ 0x143 → b₁ i = b₂ i) : recordOf b₁ = recordOf b₂ := by
  have htitle : (fun k : Fin 16 => if k.val < 15 then b₁ (0x134 + k.val) else 0x00) =
      fun k : Fin 16 => if k.val < 15 then b₂ (0x134 + k.val) else 0x00 :=
    funext fun k => ite_congr rfl (fun hk => h _ (by omega) (by omega)) fun _ => rfl
  rw [recordOf, recordOf, htitle]
  simp [declaredChecksum, h]

/-- Putting a byte at a summed index exchanges it for the old one in the exact sum (R95). -/
theorem byteSum_update (hi : i < L) (hsummed : skipped i = false) :
    byteSum (Function.update buf i b) L + (buf i).toNat = byteSum buf L + b.toNat := by
  induction L with
  | zero => omega
  | succ n ih =>
    rw [byteSum_succ, byteSum_succ]
    rcases Nat.lt_succ_iff_lt_or_eq.1 hi with hlt | rfl
    · rw [Function.update_of_ne hlt.ne']
      have := ih hlt
      omega
    · have hbelow : byteSum (Function.update buf i b) i = byteSum buf i :=
        byteSum_congr fun j hj _ => Function.update_of_ne hj.ne b buf
      rw [hbelow, Function.update_self, hsummed]
      simp only [Bool.false_eq_true, if_false]
      omega

/-- Two bytes differ by less than 2^16, so the checksum tells them apart (R100). -/
theorem checksum_update_eq_iff (hi : i < L) (hsummed : skipped i = false) :
    checksum (Function.update buf i b) L = checksum buf L ↔ b = buf i := by
  have hsum := byteSum_update (buf := buf) (b := b) hi hsummed
  rw [checksum, checksum, ← BitVec.toNat_inj, ← BitVec.toNat_inj, BitVec.toNat_ofNat, BitVec.toNat_ofNat]
  have hnew := b.isLt
  have hold := (buf i).isLt
  omega

/-- Settles O56: no field is read at 0x143, and the byte there is summed. -/
theorem byte143IsOnlySummed : Obligations.Byte143IsOnlySummed := fun buf _ b hL =>
  ⟨recordOf_congr fun _ _ hi => Function.update_of_ne hi b buf, checksum_update_eq_iff (by omega) (by decide)⟩

end Sys2Proof.Machine
end

section
/-! PROOF. The cartridge lookup: its table over every byte, its independence of the order of the rows, and EXT_CART
(R87, R88, R90, R92). -/

namespace Sys2Proof.Machine

variable {r q : CartRow} {rows rows' : List CartRow} {b : Byte}

/-! ## The lookup's equations -/

theorem CartRow.covers_iff : r.covers b = true ↔ r.lo ≤ b.toNat ∧ b.toNat ≤ r.hi := by
  simp [CartRow.covers]

@[simp] theorem cartLookup_nil : cartLookup [] b = .none := rfl

theorem cartLookup_cons : cartLookup (r :: rows) b = if r.covers b then r.variant else cartLookup rows b := rfl

/-- `CartLUT` with the rows written out (R87). -/
theorem cartLUT_eq : cartLUT b =
    if 0x01 ≤ b.toNat ∧ b.toNat ≤ 0x03 then .type1 else if 0x05 ≤ b.toNat ∧ b.toNat ≤ 0x06 then .type2
    else if 0x12 ≤ b.toNat ∧ b.toNat ≤ 0x13 then .type3 else if 0x19 ≤ b.toNat ∧ b.toNat ≤ 0x1E then .type5
    else .none := by
  simp only [cartLUT, cartTable, cartLookup_cons, CartRow.covers_iff, cartLookup_nil]

/-- The code written for a byte, by the intervals of R87. -/
theorem code_cartLUT (b : Byte) : (cartLUT b).code =
    if 0x01 ≤ b.toNat ∧ b.toNat ≤ 0x03 then 0b001 else if 0x05 ≤ b.toNat ∧ b.toNat ≤ 0x06 then 0b010
    else if 0x12 ≤ b.toNat ∧ b.toNat ≤ 0x13 then 0b011 else if 0x19 ≤ b.toNat ∧ b.toNat ≤ 0x1E then 0b101
    else 0b000 := by
  rw [cartLUT_eq]
  simp only [apply_ite CartType.code]
  rfl

/-! ## Disjoint rows in any order (R92) -/

/-- Two rows that share no byte. -/
def CartRow.Disjoint (r q : CartRow) : Prop := ∀ b : Byte, ¬(r.covers b = true ∧ q.covers b = true)

theorem CartRow.Disjoint.symm (h : r.Disjoint q) : q.Disjoint r := fun b hb => h b hb.symm

theorem CartRow.disjoint_of_hi_lt_lo (h : r.hi < q.lo) : r.Disjoint q := by
  intro b ⟨hr, hq⟩
  rw [CartRow.covers_iff] at hr hq
  omega

/-- The named rows stand in rising order. -/
theorem cartTable_pairwise_disjoint : cartTable.Pairwise CartRow.Disjoint :=
  List.Pairwise.imp CartRow.disjoint_of_hi_lt_lo (R := fun r q : CartRow => r.hi < q.lo) (by decide)

/-- No byte is covered by two rows of a disjoint list, so exchanging two neighbours leaves the first match the same. -/
theorem cartLookup_eq_of_perm (hperm : rows.Perm rows') (hdisj : rows.Pairwise CartRow.Disjoint) :
    cartLookup rows b = cartLookup rows' b := by
  induction hperm with
  | nil => rfl
  | cons r _ ih => rw [cartLookup_cons, cartLookup_cons, ih hdisj.of_cons]
  | swap r q rows =>
    have hqr : ¬(q.covers b = true ∧ r.covers b = true) := List.rel_of_pairwise_cons hdisj List.mem_cons_self b
    simp only [cartLookup_cons]
    split_ifs with hq hr
    · exact absurd ⟨hq, hr⟩ hqr
    all_goals rfl
  | trans hfirst _ ih₁ ih₂ =>
    exact (ih₁ hdisj).trans (ih₂ (hfirst.pairwise hdisj CartRow.Disjoint.symm))

/-- Settles O24: the rows are disjoint, and a permutation of disjoint rows looks up the same. -/
theorem cartRowOrderDoesNotMatter : Obligations.CartRowOrderDoesNotMatter :=
  ⟨cartTable_pairwise_disjoint, fun _ hperm _ => (cartLookup_eq_of_perm hperm.symm cartTable_pairwise_disjoint).symm⟩

/-! ## Every byte (R87, R88, R90) -/

/-- Settles O16: the intervals of the table, their values listed. -/
theorem extCartClassifiesTheByte : Obligations.ExtCartClassifiesTheByte := by
  intro s hlen
  refine ⟨_, exec_extCart_of_inside hlen, ?_⟩
  generalize readByte s.buf 0x147 = b
  have htype1 : (b.toNat = 0x01 ∨ b.toNat = 0x02 ∨ b.toNat = 0x03) ↔ 0x01 ≤ b.toNat ∧ b.toNat ≤ 0x03 := by omega
  have htype2 : (b.toNat = 0x05 ∨ b.toNat = 0x06) ↔ 0x05 ≤ b.toNat ∧ b.toNat ≤ 0x06 := by omega
  have htype3 : (b.toNat = 0x12 ∨ b.toNat = 0x13) ↔ 0x12 ≤ b.toNat ∧ b.toNat ≤ 0x13 := by omega
  simp only [code_cartLUT, htype1, htype2, htype3]

/-- Settles O23: the table for every byte, and R88's count by evaluating the lookup at the 256 values. -/
theorem cartLookupOverAllBytes : Obligations.CartLookupOverAllBytes :=
  ⟨code_cartLUT, by decide +kernel⟩

end Sys2Proof.Machine
end

section
/-! PROOF. The checksum validator: SUM's turns and its whole loop, and COMPARE (R93 to R95). -/

namespace Sys2Proof.Machine

variable {s : State} {buf : Nat → Byte}

/-! ## One turn of SUM (R93) -/

theorem exec_sum_at_end (hend : s.idx = s.lenR) : exec .sum s = .next { s with seq := Seq.compare } := by
  rw [exec_sum_eq, if_pos hend]

theorem exec_sum_of_skipped (hgo : s.idx ≠ s.lenR) (hskip : skipped s.idx.toNat = true) :
    exec .sum s = .next { s with idx := s.idx + 1 } := by
  rw [exec_sum_eq, if_neg hgo, if_pos hskip]

theorem exec_sum_of_summed (hgo : s.idx.toNat < s.lenR.toNat) (hsummed : skipped s.idx.toNat = false) :
    exec .sum s = .next
      { s with sum := s.sum + (readByte s.buf s.idx.toNat).setWidth 16, idx := s.idx + 1 } := by
  have hne : s.idx ≠ s.lenR := fun h => hgo.ne (congrArg BitVec.toNat h)
  rw [exec_sum_eq, if_neg hne, if_neg (by simp [hsummed]), if_pos hgo]

/-- In the loop the bus carries the byte added, and nothing at the end or in the skip range. -/
theorem busReads_sum (hidx : s.idx.toNat ≤ s.lenR.toNat) :
    busReads .sum s = if s.idx = s.lenR ∨ skipped s.idx.toNat then [] else [s.idx.toNat] := by
  rw [busReads_of_inside (operand_inside_sum hidx), operandIndices_sum]

/-- A 16-bit sum with a zero-extended byte (R21). -/
theorem toNat_add_setWidth (v : Half) (b : Byte) : (v + b.setWidth 16).toNat = (v.toNat + b.toNat) % 65536 := by
  rw [BitVec.toNat_add, BitVec.toNat_setWidth_of_le (by decide)]

/-- Settles O20: the end of the loop, the skip range, and a byte added. -/
theorem sumAddsOneByteModulo65536 : Obligations.SumAddsOneByteModulo65536 := by
  intro s hidx
  have hlt (hgo : s.idx ≠ s.lenR) : s.idx.toNat < s.lenR.toNat :=
    lt_of_le_of_ne hidx fun h => hgo (BitVec.eq_of_toNat_eq h)
  rw [busReads_sum hidx]
  refine ⟨fun hend => ⟨exec_sum_at_end hend, if_pos (.inl hend)⟩, fun hgo hin => ?_, fun hgo hlo hhi => ?_⟩
  · have hskip := (skipped_iff s.idx.toNat).2 hin
    exact ⟨if_pos (.inr hskip), _, exec_sum_of_skipped hgo hskip, idx_succ_toNat (hlt hgo)⟩
  · have hout : ¬ skipped s.idx.toNat = true := by simp [skipped_iff, hlo, hhi]
    exact ⟨if_neg (not_or_intro hgo hout), _, _, exec_sum_of_summed (hlt hgo) (Bool.eq_false_iff.2 hout),
      idx_succ_toNat (hlt hgo), toNat_add_setWidth _ _⟩

/-! ## The whole loop (R95) -/

theorem checksum_succ (n : Nat) :
    checksum buf (n + 1) = if skipped n then checksum buf n else checksum buf n + (buf n).setWidth 16 := by
  simp only [checksum, byteSum_succ, ofNat_add_setWidth]
  split_ifs <;> rfl

/-- SUM's loop once it has come to an index: the bytes before it are summed. -/
def State.summedTo (s : State) (j : Index) : State := { s with idx := j, sum := checksum (readByte s.buf) j.toNat }

/-- The loop begins with nothing summed. -/
theorem State.summedTo_zero (hidx : s.idx = 0) (hsum : s.sum = 0) : s.summedTo 0 = s := by
  have hnone : checksum (readByte s.buf) (0 : Index).toNat = 0 := rfl
  rw [State.summedTo, hnone, ← hidx, ← hsum]

/-- A turn of the loop takes it to the next index. -/
theorem exec_sum_summedTo {j : Index} (hgo : j.toNat < s.lenR.toNat) :
    exec .sum (s.summedTo j) = .next (s.summedTo (j + 1)) := by
  have hnext : (j + 1).toNat = j.toNat + 1 := idx_succ_toNat (s := s.summedTo j) hgo
  simp only [State.summedTo, hnext, checksum_succ]
  cases hskip : skipped j.toNat with
  | true => exact exec_sum_of_skipped (s := s.summedTo j) (fun h => hgo.ne (congrArg BitVec.toNat h)) hskip
  | false => exact exec_sum_of_summed (s := s.summedTo j) hgo hskip

/-- The loop takes a step for each index left, by induction on their number. -/
theorem run_sum_loop (hseq : s.seq = Seq.sum) (hp : s.pending = []) {k : Nat} {j : Index}
    (hk : j.toNat + k = s.lenR.toNat) (n : Nat) :
    Sys2Proof.core.run (n + k) (s.summedTo j) = Sys2Proof.core.run n (s.summedTo s.lenR) := by
  induction k generalizing j with
  | zero => rw [BitVec.eq_of_toNat_eq hk, Nat.add_zero]
  | succ k ih =>
    have hgo : j.toNat < s.lenR.toNat := by omega
    have hnext : (j + 1).toNat = j.toNat + 1 := idx_succ_toNat (s := s.summedTo j) hgo
    exact (run_of_exec_next (s := s.summedTo j) (i := .sum) hp (congrArg decodeSeq hseq) (exec_sum_summedTo hgo)).trans
      (ih (by omega))

/-- Settles O48: `LEN_R` turns of the loop, and the step that finds its end. -/
theorem sumLoopComputesTheChecksum : Obligations.SumLoopComputesTheChecksum := by
  intro s hseq hidx hsum hp
  calc Sys2Proof.core.run (s.lenR.toNat + 1) s
    _ = Sys2Proof.core.run (1 + s.lenR.toNat) (s.summedTo 0) := by
      rw [State.summedTo_zero hidx hsum, Nat.add_comm]
    _ = Sys2Proof.core.run 1 (s.summedTo s.lenR) := run_sum_loop hseq hp (Nat.zero_add _) 1
    _ = .next { s.summedTo s.lenR with seq := Seq.compare } :=
      run_of_exec_next (s := s.summedTo s.lenR) hp (congrArg decodeSeq hseq) (exec_sum_at_end rfl)

/-! ## COMPARE (R94) -/

theorem exec_compare_of_eq (h : s.sum = s.cksum) : exec .compare s = .next (s.raise .ok) := by
  rw [exec_compare_eq, if_pos h]
  rfl

theorem exec_compare_of_ne (h : s.sum ≠ s.cksum) : exec .compare s = .next (s.raise .badChecksum) := by
  rw [exec_compare_eq, if_neg h]

/-- The header is valid after no outcome but `OK` (R18). -/
theorem State.hdrValid_raise_iff (e : ParseOutcome) : (s.raise e).hdrValid = true ↔ e = .ok := by
  rw [State.hdrValid_iff]
  cases e <;> simp [ParseOutcome.code]

/-- Settles O21: the two sides of the 16-bit comparison. -/
theorem compareDecidesOnAllSixteenBits : Obligations.CompareDecidesOnAllSixteenBits := by
  intro s
  refine ⟨exec_compare_of_ne, exec_compare_of_eq, rfl, fun t hn => ?_⟩
  by_cases heq : s.sum = s.cksum
  · obtain rfl := Host.Outcome.next.inj ((exec_compare_of_eq heq).symm.trans hn)
    exact ⟨rfl, iff_of_true ((State.hdrValid_raise_iff _).2 rfl) heq⟩
  · obtain rfl := Host.Outcome.next.inj ((exec_compare_of_ne heq).symm.trans hn)
    exact ⟨rfl, iff_of_false (by simp [State.hdrValid_raise_iff]) heq⟩

end Sys2Proof.Machine
end

section
/-! PROOF. Which bytes decide the outcome: the declared ones, the summed ones, and none at or past the length (R97, R98, R100,
R122). -/

namespace Sys2Proof.Machine

variable {buf : Nat → Byte} {L i : Nat} {b hi lo : Byte}

/-- From 0x150 bytes on, a parse yields a record exactly when the declared checksum is the computed one (R98). -/
theorem parseFunction_eq_record_iff (hL : 0x150 ≤ L) :
    (∃ r, parseFunction L buf = .record r) ↔ checksum buf L = declaredChecksum buf := by
  rw [parseFunction_of_full hL]
  split_ifs with heq
  · exact iff_of_true ⟨_, rfl⟩ heq
  · exact iff_of_false (fun ⟨_, hr⟩ => by cases hr) heq

theorem parseFunction_of_bad (hL : 0x150 ≤ L) (hne : checksum buf L ≠ declaredChecksum buf) :
    parseFunction L buf = .error .badChecksum := by
  rw [parseFunction_of_full hL, if_neg hne]

/-- The checksum depends on the summed bytes below the length only (R95). -/
theorem checksum_congr {b₁ b₂ : Nat → Byte} (h : ∀ i < L, skipped i = false → b₁ i = b₂ i) :
    checksum b₁ L = checksum b₂ L := by
  rw [checksum, checksum, byteSum_congr h]

/-! ## The declared bytes (R97) -/

/-- The declared bytes are not summed, whatever is put there. -/
theorem checksum_update_declared :
    checksum (Function.update (Function.update buf 0x14E hi) 0x14F lo) L = checksum buf L := by
  refine checksum_congr fun i _ hsummed => ?_
  have hlo : i ≠ 0x14F := by rintro rfl; cases hsummed
  have hhi : i ≠ 0x14E := by rintro rfl; cases hsummed
  rw [Function.update_of_ne hlo, Function.update_of_ne hhi]

theorem declaredChecksum_update_declared :
    declaredChecksum (Function.update (Function.update buf 0x14E hi) 0x14F lo) = be16 hi lo := by
  rw [declaredChecksum, Function.update_self, Function.update_of_ne (by decide), Function.update_self]

/-- Settles O54: the checksum stays, and `BE16` of the two bytes is the declared one. -/
theorem exactlyOneDeclaredValueIsOk : Obligations.ExactlyOneDeclaredValueIsOk := by
  intro buf L hi lo hL
  refine ⟨checksum_update_declared, ?_⟩
  rw [parseFunction_eq_record_iff hL, checksum_update_declared, declaredChecksum_update_declared, ← be16_toNat,
    BitVec.toNat_inj, eq_comm]

/-! ## A summed byte (R100) -/

/-- A byte put elsewhere leaves the declared checksum. -/
theorem declaredChecksum_update (hhi : i ≠ 0x14E) (hlo : i ≠ 0x14F) :
    declaredChecksum (Function.update buf i b) = declaredChecksum buf := by
  rw [declaredChecksum, Function.update_of_ne hhi.symm, Function.update_of_ne hlo.symm, declaredChecksum]

/-- Settles O55: the computed checksum moves and the declared one does not. -/
theorem changingASummedByteChangesTheOutcome : Obligations.ChangingASummedByteChangesTheOutcome := by
  intro buf L i b hL hi hhi hlo hb
  have hsummed : skipped i = false := by simp [Bool.eq_false_iff, skipped_iff, hhi, hlo]
  have hmoved : checksum (Function.update buf i b) L ≠ checksum buf L := mt (checksum_update_eq_iff hi hsummed).1 hb
  refine ⟨hmoved, fun hok => parseFunction_of_bad hL ?_⟩
  rwa [declaredChecksum_update hhi hlo, ← (parseFunction_eq_record_iff hL).1 hok]

/-! ## Bytes at or past the length (R98, R122) -/

/-- Settles O57: a short parse reads no byte into its outcome, and a full one the bytes of the checksum and the record, all
below the length. -/
theorem bytesBeyondTheLengthDoNotMatter : Obligations.BytesBeyondTheLengthDoNotMatter := by
  intro b₁ b₂ L h
  rcases Nat.lt_trichotomy L 0x14F with hshort | rfl | hfull
  · rw [parseFunction_of_short hshort, parseFunction_of_short hshort]
  · rw [parseFunction_of_oneShort, parseFunction_of_oneShort]
  · have hrecord : recordOf b₁ = recordOf b₂ := recordOf_congr fun i hi _ => h i (by omega)
    have hdeclared : declaredChecksum b₁ = declaredChecksum b₂ := congrArg Record.checksum hrecord
    rw [parseFunction_of_full hfull, parseFunction_of_full hfull, checksum_congr fun i hi _ => h i hi, hrecord, hdeclared]

end Sys2Proof.Machine
end

section
/-! PROOF. The outcome a parse ends with is the one whose micro-operation runs and whose cause holds (R101, R106). -/

namespace Sys2Proof.Machine

variable {s : State} {e f : ParseOutcome}

theorem ParseOutcome.code_inj : e.code = f.code ↔ e = f :=
  (Function.LeftInverse.injective ParseOutcome.ofCode_code).eq_iff

/-- Two outcomes raised by one micro-operation are the two of COMPARE. -/
theorem ParseOutcome.eq_or_compare_of_raisedAt (h : e.raisedAt = f.raisedAt) :
    e = f ∨ (e = .ok ∧ f = .badChecksum) ∨ (e = .badChecksum ∧ f = .ok) := by
  revert h
  cases e <;> cases f <;> decide

/-- No state has two outcomes to raise: COMPARE's two causes exclude each other (R101). -/
theorem outcome_unique (hat : s.seq = e.raisedAt) (hcause : OutcomeCause (s.raise e)) (hat' : s.seq = f.raisedAt)
    (hcause' : OutcomeCause (s.raise f)) : e = f := by
  rcases ParseOutcome.eq_or_compare_of_raisedAt (hat.symm.trans hat') with heq | ⟨rfl, rfl⟩ | ⟨rfl, rfl⟩
  · exact heq
  · exact absurd hcause.2 hcause'.2
  · exact absurd hcause'.2 hcause.2

/-- Settles O47: the step is one of the sequencer's moves, of which an outcome alone ends in DONE, and there is one outcome
to raise. -/
theorem eachOutcomeHasItsCause : Obligations.EachOutcomeHasItsCause := by
  intro s t hs hb hp hstep hdone
  obtain ⟨_, hexec, hmove⟩ := (hs.parseProgress hb).exec_move hb
  obtain rfl := Host.Outcome.next.inj (((step_of_pending_nil hp).trans hexec).symm.trans hstep)
  rcases hmove.outcome_or_goes_on with ⟨e, hat, hcause, rfl⟩ | ⟨hgo, -⟩
  · have hiff (f : ParseOutcome) : (s.raise e).status = f.code ↔ s.seq = f.raisedAt ∧ OutcomeCause (s.raise f) := by
      rw [State.raise_status, ParseOutcome.code_inj]
      constructor
      · rintro rfl
        exact ⟨hat, hcause⟩
      · rintro ⟨hat', hcause'⟩
        exact outcome_unique hat hcause hat' hcause'
    exact ⟨hiff .ok, hiff .romTooShort, hiff .badChecksum, hiff .truncated⟩
  · exact absurd hdone hgo

end Sys2Proof.Machine
end

section
/-! PROOF. The field registers, clear until their micro-operation writes them (R85, R98, R124), and the reset step that
clears them and every other register (R63, R64, R117, R119). -/

namespace Sys2Proof.Machine

variable {s t : State} {h : HostStep}

/-! ## The two halves of the invariant -/

/-- The first half of `FieldsInv`: a field register whose micro-operation is still to run is zero. -/
structure FieldsClear (s : State) : Prop where
  entry : s.seq.toNat ≤ 2 → s.entry0 = 0 ∧ s.entry1 = 0
  title : s.seq.toNat ≤ 3 → s.title = Vector.replicate 16 0x00
  cart : s.seq.toNat ≤ 4 → s.cart = 0
  dest : s.seq.toNat ≤ 5 → s.dest = 0
  cksum : s.seq.toNat ≤ 6 → s.cksum = 0

theorem FieldsInv.fieldsClear (hs : FieldsInv s) : FieldsClear s :=
  ⟨hs.entry_clear, hs.title_clear, hs.cart_clear, hs.dest_clear, hs.cksum_clear⟩

/-- The second half of `FieldsInv`: with the fields written so far the buffer's, the record ahead is the buffer's. -/
theorem FieldsInv.recordAhead_eq (hs : FieldsInv s) (hlast : s.seq.toNat ≤ 9)
    (hsizes : s.romSz = 0x0000 ∧ s.ramSz = 0x0000) : s.recordAhead = recordOf (readByte s.buf) :=
  Eq.mpr (Record.mk.injEq ..) ⟨ite_eq_left_iff.2 fun _ => hs.entry (by omega) hlast,
    ite_eq_left_iff.2 fun _ => hs.title (by omega) hlast, ite_eq_left_iff.2 fun _ => hs.cart (by omega) hlast,
    ite_eq_left_iff.2 fun _ => hsizes.1, ite_eq_left_iff.2 fun _ => hsizes.2,
    ite_eq_left_iff.2 fun _ => hs.dest (by omega) hlast, ite_eq_left_iff.2 fun _ => hs.cksum (by omega) hlast⟩

/-- The two halves together. -/
theorem FieldsClear.fieldsInv (hs : FieldsClear s) (hahead : s.recordAhead = recordOf (readByte s.buf)) : FieldsInv s where
  entry_clear := hs.entry
  title_clear := hs.title
  cart_clear := hs.cart
  dest_clear := hs.dest
  cksum_clear := hs.cksum
  entry hc _ := (if_neg (by omega)).symm.trans (congrArg Record.entryPoint hahead)
  title hc _ := (if_neg (by omega)).symm.trans (congrArg Record.title hahead)
  cart hc _ := (if_neg (by omega)).symm.trans (congrArg Record.cartridgeType hahead)
  dest hc _ := (if_neg (by omega)).symm.trans (congrArg Record.destinationCode hahead)
  cksum hc _ := (if_neg (by omega)).symm.trans (congrArg Record.checksum hahead)

/-- Of DONE the invariant says nothing: the parse is over. -/
theorem fieldsInv_of_done (hd : s.seq = Seq.done) : FieldsInv s := by
  have hcode : s.seq.toNat = 0xA := congrArg BitVec.toNat hd
  constructor <;> intros <;> omega

/-! ## The sequencer -/

/-- A register that PARSE and one micro-operation write has no writer at any code but that micro-operation's (R13, R53). -/
theorem decodeSeq_notMem_writers {i : Instr} {c k : BitVec 4} (hi : encode i = .seq4 k) (hc : c ≠ k) :
    decodeSeq c ∉ [Instr.parse, i] := by
  have hne : decodeSeq c ≠ i := by
    rintro rfl
    exact hc (CodeWord.seq4.inj ((encode_decodeSeq c).symm.trans hi))
  simp [decodeSeq_ne_parse, hne]

/-- Up to SUM the sequencer only moves on (R53). -/
theorem SequencerMove.seq_lt (hmove : SequencerMove s t) (hpre : t.seq.toNat < 8) : s.seq.toNat < t.seq.toNat := by
  cases hmove with
  | advance hbefore _ _ _ hseq =>
    rw [hseq, toNat_succ_of_le hbefore]
    exact Nat.lt_succ_self _
  | loop hsum _ hseq => exact absurd (hseq.trans hsum ▸ hpre) (by decide)
  | outcome _ _ _ hraise =>
    subst hraise
    exact absurd hpre (show ¬ Seq.done.toNat < 8 by decide)

/-- A register whose micro-operation is still to run afterwards is not written: its code lies past the one executed. -/
theorem FieldsClear.of_exec (hs : FieldsClear s) (hexec : exec (decodeSeq s.seq) s = .next t) (hmove : SequencerMove s t) :
    FieldsClear t := by
  obtain ⟨-, -, -, -, hentry, htitle, hcart, hdest, -, hcksum, -⟩ := eachRegisterHasItsWriters _ s t hexec
  have hkept (i : Instr) {k : BitVec 4} (hi : encode i = .seq4 k) (hk : k.toNat < 8) (hc : t.seq.toNat ≤ k.toNat) :
      s.seq.toNat ≤ k.toNat ∧ decodeSeq s.seq ∉ [Instr.parse, i] := by
    have hlt := hmove.seq_lt (by omega)
    exact ⟨by omega, decodeSeq_notMem_writers hi fun h => absurd (h ▸ hlt) (Nat.not_lt.2 hc)⟩
  constructor <;> intro hc
  · obtain ⟨hcs, hi⟩ := hkept .extEntry rfl (by decide) hc
    rw [(hentry hi).1, (hentry hi).2]
    exact hs.entry hcs
  · obtain ⟨hcs, hi⟩ := hkept .extTitle rfl (by decide) hc
    exact (htitle hi).trans (hs.title hcs)
  · obtain ⟨hcs, hi⟩ := hkept .extCart rfl (by decide) hc
    exact (hcart hi).trans (hs.cart hcs)
  · obtain ⟨hcs, hi⟩ := hkept .extDest rfl (by decide) hc
    exact (hdest hi).trans (hs.dest hcs)
  · obtain ⟨hcs, hi⟩ := hkept .extCksum rfl (by decide) hc
    exact (hcksum hi).trans (hs.cksum hcs)

/-- The sequencer's step keeps the field registers, in a hold state because nothing moves. -/
theorem FieldsInv.of_exec (hs : FieldsInv s) (hinv : Inv s) (hexec : exec (decodeSeq s.seq) s = .next t) : FieldsInv t := by
  cases hb : s.busy with
  | false =>
    obtain rfl := Host.Outcome.next.inj ((exec_hold hb s).symm.trans hexec)
    exact hs
  | true =>
    have hprog := hinv.parseProgress hb
    obtain ⟨u, hexec', hmove⟩ := hprog.exec_move hb
    obtain rfl : t = u := Host.Outcome.next.inj (hexec.symm.trans hexec')
    by_cases hd : t.seq = Seq.done
    · exact fieldsInv_of_done hd
    · refine (hs.fieldsClear.of_exec hexec hmove).fieldsInv ?_
      have hlast : s.seq.toNat ≤ 9 := by
        have hlegal := hinv.seq_legal
        have hcode := State.busy_iff_toNat.1 hb
        omega
      obtain ⟨-, hbuf, -⟩ := exec_micro_frame hexec
      rw [hprog.recordAhead_of_exec hb hexec hd, hbuf]
      exact hs.recordAhead_eq hlast hinv.sizes_zero

/-! ## The host -/

/-- The host's `len` wire and the events to come are no part of the invariant. -/
theorem FieldsInv.withHost (hs : FieldsInv s) (n : Index) (p : List Event) : FieldsInv { s with len := n, pending := p } :=
  { hs with }

/-- In a hold state the invariant asks nothing of the buffer. -/
theorem FieldsInv.withBuf (hs : FieldsInv s) (hb : s.busy = false) (m : Memory) : FieldsInv (s.withBuf m) :=
  have hhold {n : Nat} (hn : 1 ≤ n) (hc : n ≤ s.seq.toNat) (hlast : s.seq.toNat ≤ 9) : False :=
    Bool.eq_false_iff.1 hb (State.busy_iff_toNat.2 (by omega))
  { hs with
    entry := fun hc hlast => (hhold (by decide) hc hlast).elim
    title := fun hc hlast => (hhold (by decide) hc hlast).elim
    cart := fun hc hlast => (hhold (by decide) hc hlast).elim
    dest := fun hc hlast => (hhold (by decide) hc hlast).elim
    cksum := fun hc hlast => (hhold (by decide) hc hlast).elim }

/-- What the host drives keeps the field registers: it writes the buffer only while no parse runs (R64, R123). -/
theorem FieldsInv.driveInputs (hs : FieldsInv s) (hw : h.writes = [] ∨ mayWrite h s = true) :
    FieldsInv (driveInputs h s) := by
  rcases hw with hnone | hmay
  · rw [Machine.driveInputs, hnone]
    exact hs.withHost _ _
  · have hb : s.busy = false := State.not_busy_iff.2 (hold_of_mayWrite hmay)
    exact (hs.withBuf hb (writeCells s.buf h.writes)).withHost (h.drive.getD s.len) s.pending

/-- Sampling `rst` and `cmd` keeps the field registers, or clears them for IDLE or LENCHK. -/
theorem FieldsInv.sampleCommand (hs : FieldsInv s) (hn : sampleCommand h s = .next t) : FieldsInv t := by
  rcases sampleCommand_next hn with ⟨-, rfl⟩ | ⟨-, -, rfl⟩ | ⟨-, -, -, rfl⟩ | ⟨-, -, -, rfl⟩
  · exact fieldsInv_resetRegisters
  · exact hs
  · exact hs
  · exact fieldsInv_beginParse

/-- Settles O40, by the agent that moves: the sequencer, the host, or a host that waits. -/
theorem everyStepKeepsTheFieldRegisters : Obligations.EveryStepKeepsTheFieldRegisters := by
  intro s t hinv hs hn
  have hs' := hs.withHost s.len s.pending.tail
  rcases step_next hn with ⟨-, hexec⟩ | ⟨h, -, hw, -, hcmd⟩ | ⟨-, rfl⟩
  · exact hs'.of_exec (hinv.withPending _) hexec
  · exact (hs'.driveInputs hw).sampleCommand hcmd
  · exact hs.withHost _ _

/-! ## The reset step -/

/-- In a hold state the next step reads no byte, whichever agent moves (R69, R70, R72). -/
theorem stepReads_of_hold (hb : s.busy = false) : stepReads s = [] := by
  unfold stepReads
  split
  · rcases State.not_busy_iff.1 hb with hseq | hseq <;> rw [hseq] <;> rfl
  · rfl
  · rfl

/-- Settles O33: the block samples the reset on what the host drives, and the state it leaves is IDLE. -/
theorem resetStepResetsEveryRegister : Obligations.ResetStepResetsEveryRegister := by
  intro s h p hp hrst hmay
  exact ⟨(driveInputs h { s with pending := p }).resetRegisters, (step_of_mayMove hp hmay).trans (if_pos hrst), rfl,
    observe_of_seq_ne (by simp), stepReads_of_hold rfl⟩

end Sys2Proof.Machine
end
